-- ==== Sys2Proof/Word.lean ====
section
/-! DEFINITION. The two sizes of datum the engine moves: message bytes and 32-bit register words
(R9, R123: every value is an unsigned integer). -/

namespace Sys2Proof

/-- A byte of the CMD or TX stream (R30, R31, R33). -/
abbrev Byte := BitVec 8

/-- A 32-bit register or RSP word (R10, R34). -/
abbrev Word := BitVec 32

end Sys2Proof
end

