-- ==== Sys2Proof/Config.lean ====
section
/-! DEFINITION. What is fixed for one engine: the constants of the hardware (R5 to R7) and the two
parameters of a configuration (R8). The spec leaves no result of a command open, so there is no
free value here. -/

namespace Sys2Proof

/-- R5: the modulus, the largest prime below 2^16. -/
def MOD : Nat := 65521

/-- R6: the block bound. -/
def NMAX : Nat := 5552

/-- R7: the bytes the scalar path accumulates between two reductions. -/
def STRIDE : Nat := 16

/-- R8: the parameters of one engine. A lane width outside 16 to 32 is refused (R156, U15): no
`Config` has one (DESIGN CHOICE, log entry 10). -/
structure Config where
  /-- lane width in bytes of the vectorised path -/
  W : Nat
  /-- whether VABS takes the vectorised path (R84) or the scalar fall-back (R85) -/
  hasVector : Bool
  W_range : 16 ≤ W ∧ W ≤ 32
  deriving DecidableEq, Repr

namespace Config

/-- R156: the configuration of given parameters, refused outside the range. -/
def ofParams? (W : Nat) (hasVector : Bool) : Option Config :=
  if h : 16 ≤ W ∧ W ≤ 32 then some ⟨W, hasVector, h⟩ else none

/-- R8: this spec's default lane width 32. That the vector path is present is the model's DESIGN
CHOICE (log entry 1): the spec leaves HAS_VECTOR open. -/
def default : Config := ⟨32, true, by decide⟩

/-- R8, R87: `LANES_MAX = floor(NMAX / W)`. -/
def lanesMax (c : Config) : Nat := NMAX / c.W

end Config

end Sys2Proof
end

