-- ==== Sys2Proof/Syntax.lean ====
section
/-! DEFINITION. The command set A32E-CMD version 1: one constructor per row of the opcode map (R50). -/

namespace Sys2Proof

/-- R50: the thirteen commands with their operands (R47 to R49). -/
inductive Instr where
  | nop
  | init
  | seed (imm32 : Word)
  | setck (imm32 : Word)
  | abs (imm8 : Byte)
  | vabs (lane : List Byte)
  | fin
  | ser
  | rdCk
  | rdS1
  | rdS2
  | rdStatus
  | rdCap
  deriving DecidableEq, Repr

end Sys2Proof
end

