-- ==== Sys2Proof/WellFormed.lean ====
section
/-! DEFINITION. Which instructions an engine of a given configuration can be sent: only the lane of
VABS has a shape to check (R46, R49, R52: payload bytes have no reserved values). -/

namespace Sys2Proof

/-- R49: the lane of VABS is exactly `W` bytes; every other operand is legal at every value. (The
range of SEED, R62, is checked when the command executes, not when it is decoded.) -/
def Instr.wf (c : Config) : Instr → Bool
  | .vabs lane => lane.length == c.W
  | .nop => true
  | .init => true
  | .seed _ => true
  | .setck _ => true
  | .abs _ => true
  | .fin => true
  | .ser => true
  | .rdCk => true
  | .rdS1 => true
  | .rdS2 => true
  | .rdStatus => true
  | .rdCap => true

end Sys2Proof
end

