-- ==== Sys2Proof/Decode.lean ====
section
/-! DEFINITION. The opcode map, packet formats, the decoder (total on any byte sequence) and the
encoder, written from the same tables (R45 to R53). -/

namespace Sys2Proof

/-- R46: the four packet formats. -/
inductive Format where
  | Z
  | I8
  | I32
  | L
  deriving DecidableEq, Repr

/-- R46: how many payload bytes follow the opcode byte. -/
def Format.payload (c : Config) : Format → Nat
  | .Z => 0
  | .I8 => 1
  | .I32 => 4
  | .L => c.W

/-- R50: the thirteen opcodes, without operands. -/
inductive Opcode where
  | nop
  | init
  | seed
  | setck
  | abs
  | vabs
  | fin
  | ser
  | rdCk
  | rdS1
  | rdS2
  | rdStatus
  | rdCap
  deriving DecidableEq, Repr

/-- R50: the opcode byte of each row. -/
def Opcode.byte : Opcode → Byte
  | .nop => 0x00
  | .init => 0x01
  | .seed => 0x02
  | .setck => 0x03
  | .abs => 0x10
  | .vabs => 0x11
  | .fin => 0x20
  | .ser => 0x21
  | .rdCk => 0x30
  | .rdS1 => 0x31
  | .rdS2 => 0x32
  | .rdStatus => 0x33
  | .rdCap => 0x34

/-- R50: the format of each row. -/
def Opcode.format : Opcode → Format
  | .nop => .Z
  | .init => .Z
  | .seed => .I32
  | .setck => .I32
  | .abs => .I8
  | .vabs => .L
  | .fin => .Z
  | .ser => .Z
  | .rdCk => .Z
  | .rdS1 => .Z
  | .rdS2 => .Z
  | .rdStatus => .Z
  | .rdCap => .Z

/-- R50, R52: the row an opcode byte selects; every other byte is reserved. -/
def Opcode.ofByte? (op : Byte) : Option Opcode :=
  match op.toNat with
  | 0x00 => some .nop
  | 0x01 => some .init
  | 0x02 => some .seed
  | 0x03 => some .setck
  | 0x10 => some .abs
  | 0x11 => some .vabs
  | 0x20 => some .fin
  | 0x21 => some .ser
  | 0x30 => some .rdCk
  | 0x31 => some .rdS1
  | 0x32 => some .rdS2
  | 0x33 => some .rdStatus
  | 0x34 => some .rdCap
  | _ => none

/-- R51: `length(Op)`; a reserved byte is a packet by itself. -/
def packetLength (c : Config) (op : Byte) : Nat :=
  match Opcode.ofByte? op with
  | some o => 1 + o.format.payload c
  | none => 1

/-- R97: `BE32(v)`, the four bytes of a 32-bit value, most significant first. -/
def be32 (v : Word) : List Byte :=
  [v.extractLsb' 24 8, v.extractLsb' 16 8, v.extractLsb' 8 8, v.extractLsb' 0 8]

/-- R48: a number assembled from its bytes, the first the most significant. -/
def ofBE32 : List Byte → Word
  | [b0, b1, b2, b3] => b0 ++ b1 ++ b2 ++ b3
  | _ => 0

/-- R47: the first payload byte. -/
def firstByte : List Byte → Byte
  | b :: _ => b
  | [] => 0

/-- R46: the instruction an opcode and its payload stand for. The decoder gives it exactly the
payload bytes the format asks for. -/
def Opcode.build (o : Opcode) (P : List Byte) : Instr :=
  match o with
  | .nop => .nop
  | .init => .init
  | .seed => .seed (ofBE32 P)
  | .setck => .setck (ofBE32 P)
  | .abs => .abs (firstByte P)
  | .vabs => .vabs P
  | .fin => .fin
  | .ser => .ser
  | .rdCk => .rdCk
  | .rdS1 => .rdS1
  | .rdS2 => .rdS2
  | .rdStatus => .rdStatus
  | .rdCap => .rdCap

/-- What the decoder finds at the head of the CMD stream (R31, R51, R52). -/
inductive Decoded where
  /-- no byte -/
  | empty
  /-- an opcode byte whose payload has not all arrived: the engine holds (R31) -/
  | held
  /-- a reserved opcode byte, a packet by itself, and the bytes behind it (R52) -/
  | reserved (op : Byte) (rest : List Byte)
  /-- a whole packet and the bytes behind it -/
  | packet (i : Instr) (rest : List Byte)
  deriving DecidableEq, Repr

/-- R51: decode the packet at the head of a byte sequence. -/
def decode (c : Config) : List Byte → Decoded
  | [] => .empty
  | op :: rest =>
    match Opcode.ofByte? op with
    | none => .reserved op rest
    | some o =>
      if rest.length < o.format.payload c then .held
      else .packet (o.build (rest.take (o.format.payload c))) (rest.drop (o.format.payload c))

/-- R50: the opcode of an instruction. -/
def Instr.opcode : Instr → Opcode
  | .nop => .nop
  | .init => .init
  | .seed _ => .seed
  | .setck _ => .setck
  | .abs _ => .abs
  | .vabs _ => .vabs
  | .fin => .fin
  | .ser => .ser
  | .rdCk => .rdCk
  | .rdS1 => .rdS1
  | .rdS2 => .rdS2
  | .rdStatus => .rdStatus
  | .rdCap => .rdCap

/-- R46: the payload bytes of an instruction, in the order they arrive. -/
def Instr.payload : Instr → List Byte
  | .seed v => be32 v
  | .setck v => be32 v
  | .abs b => [b]
  | .vabs lane => lane
  | .nop => []
  | .init => []
  | .fin => []
  | .ser => []
  | .rdCk => []
  | .rdS1 => []
  | .rdS2 => []
  | .rdStatus => []
  | .rdCap => []

/-- R46, R54: the packet of an instruction, the opcode byte and then the payload. -/
def encode (i : Instr) : List Byte := i.opcode.byte :: i.payload

/-- R45: packets follow one another with nothing between them. -/
def encodeAll (is : List Instr) : List Byte := is.flatMap encode

/-- The first `n` bytes of an instruction given as one number, the first byte its low 8 bits; bits
from `nbits` on are zero (the host's numbering of `spec/opcode_table.json`). -/
def tableBytes (n nbits w : Nat) : List Byte :=
  (List.range n).map fun k => BitVec.ofNat 8 (w % 2 ^ nbits / 2 ^ (8 * k))

/-- The instruction the decoder of the default configuration reads from a table row's number. The
longest packet has `1 + W` bytes (R46). -/
def decodeTableWord (nbits w : Nat) : Option Instr :=
  match decode Config.default (tableBytes (1 + Config.default.W) nbits w) with
  | .packet i _ => some i
  | .empty => none
  | .held => none
  | .reserved _ _ => none

end Sys2Proof
end

