-- ==== Sys2Proof/Machine/State.lean ====
section
/-! DEFINITION. The state of one engine (R10), what the spec places in its environment and a model
may carry (the remaining command bytes, R27; the output trace, R35), the model's reasons to have no
step, and the state after reset (R29). -/

namespace Sys2Proof.Machine

/-- R23: the three legal values of PHASE; the value 2 is never stored (U4, log entry 6). -/
inductive Phase where
  | active
  | done
  | fault
  deriving DecidableEq, Repr

/-- R35: an event of the output trace. -/
inductive OutEvent where
  /-- a byte on TX (R33) -/
  | tx (b : Byte)
  /-- a word on RSP (R34) -/
  | rsp (w : Word)
  deriving DecidableEq, Repr

/-- R132: the complete list of fault causes. -/
inductive Cause where
  | illegal
  | phase
  | seed
  | nock
  | serovr
  deriving DecidableEq, Repr

/-- R10: the registers of one engine, with the model's three fields `cfg`, `cmd`, `out` (log entries
1 and 2). -/
structure State where
  /-- the configuration of this engine (R8); no step changes it -/
  cfg : Config
  /-- R11: running byte sum -/
  s1 : Word
  /-- R12: running sum of `s1` -/
  s2 : Word
  /-- R14: bytes in the pending stride -/
  cnt : BitVec 4
  /-- R15: lanes in the pending block -/
  vn : BitVec 16
  /-- R16: sum of the bytes of the pending block -/
  vs : Word
  /-- R17: prefix sums of the pending block -/
  va : Word
  /-- R18: column sums of the pending block, `W` of them (log entry 7) -/
  vc : List Word
  /-- R20: the latched checksum; `none` is the spec's "no value", and CKV (R21) says which
  (`State.ckv`, log entry 4) -/
  ck : Option Word
  /-- R22: bytes of CK already sent, 0 to 4 -/
  sp : Fin 5
  /-- R23: protocol phase -/
  phase : Phase
  /-- R24: fault record, `{opcode, code}` -/
  err : BitVec 16
  /-- R27, R31: the bytes of CMD not yet taken -/
  cmd : List Byte
  /-- R35: the output trace of this run, in step order -/
  out : List OutEvent
  deriving DecidableEq, Repr

/-- Why a state has NO enabled step (log entry 3). None of these is a fault of the spec: the five
faults of R132 are next states, made by `State.raise`. -/
inductive Fault where
  /-- PHASE = FAULT is absorbing (R130, R131). Answered by `step` and by every meaning in that phase.
  Safe: the engine has no step there either. -/
  | phaseFault
  /-- the stream ends inside a packet: the engine holds (R31, R153). Answered by `step`. Safe: the
  engine has no step there either. -/
  | held
  /-- no command byte is left: the engine holds its state (R146, R153). Answered by `step`. Safe: the
  engine has no step there either. -/
  | streamEnded
  deriving DecidableEq, Repr

/-- Why an instruction has no meaning. -/
inductive Refusal where
  /-- An instruction exec has no meaning for yet. No arm answers it. Safe. -/
  | notModelled (mnemonic : String)
  /-- A VABS whose lane is not `W` bytes long: no packet of this engine stands for it (U14, log entry
  8). Answered by VABS alone, and never in a step. Safe. -/
  | laneLength
  deriving DecidableEq, Repr

/-- What executing a command answers. -/
abbrev Result := Host.Outcome State Fault Refusal

/-- R29, R150: the state after reset of an engine of configuration `c`, with an empty stream and an
empty trace. -/
def State.resetOf (c : Config) : State where
  cfg := c
  s1 := 1
  s2 := 0
  cnt := 0
  vn := 0
  vs := 0
  va := 0
  vc := List.replicate c.W 0
  ck := none
  sp := 0
  phase := .active
  err := 0
  cmd := []
  out := []

/-- R29: the state after reset, for the default configuration (log entry 1). -/
def State.reset : State := State.resetOf Config.default

end Sys2Proof.Machine
end

