-- ==== Sys2Proof/Machine/Flags.lean ====
section
/-! DEFINITION. The flag-like state and the words that show it: CKV (R21), the code of PHASE (R23),
STATUS (R25), CAP (R26), the STAT port (R35), and the two output streams as views of the trace (R33,
R34). -/

namespace Sys2Proof

/-- R26: the CAP word, `W | (HAS_VECTOR << 8) | (LANES_MAX << 16)`. -/
def Config.cap (c : Config) : Word :=
  BitVec.ofNat 32 c.W ||| (BitVec.ofBool c.hasVector).setWidth 32 <<< 8
    ||| BitVec.ofNat 32 c.lanesMax <<< 16

namespace Machine

/-- R23: the 2-bit code of a phase. -/
def Phase.code : Phase → BitVec 2
  | .active => 0
  | .done => 1
  | .fault => 3

/-- R21: CKV, 1 when CK holds a value. -/
def State.ckv (s : State) : Bool := s.ck.isSome

/-- R25: the STATUS word, `PHASE | (CKV << 2) | (SP << 3) | (CNT << 8) | (VN << 16)`. -/
def State.status (s : State) : Word :=
  s.phase.code.setWidth 32 ||| (BitVec.ofBool s.ckv).setWidth 32 <<< 2
    ||| BitVec.ofNat 32 s.sp.val <<< 3 ||| s.cnt.setWidth 32 <<< 8 ||| s.vn.setWidth 32 <<< 16

/-- R35: the STAT port, `{ ERR[15:0], CKV, PHASE[1:0] }`; reading it has no effect. -/
def State.stat (s : State) : BitVec 19 := s.err ++ BitVec.ofBool s.ckv ++ s.phase.code

/-- R33, R35: the TX stream, the subsequence of `tx` events. -/
def State.txStream (s : State) : List Byte :=
  s.out.filterMap fun
    | .tx b => some b
    | .rsp _ => none

/-- R34, R35: the RSP stream, the subsequence of `rsp` events. -/
def State.rspStream (s : State) : List Word :=
  s.out.filterMap fun
    | .rsp w => some w
    | .tx _ => none

end Machine

end Sys2Proof
end

