-- ==== Sys2Proof/Machine/Operands.lean ====
section
/-! DEFINITION. Operand forms: how payload bytes and immediates enter the arithmetic (R47 to R49), and
the sums over a lane and over the columns that the vectorised path takes of them (R81, R83). -/

namespace Sys2Proof.Machine

/-- R9, R47: a byte as an unsigned 32-bit value. -/
def zext32 (b : Byte) : Word := b.setWidth 32

/-- R48: `imm32.hi`, the `s2` half. -/
def hi16 (v : Word) : BitVec 16 := v.extractLsb' 16 16

/-- R48: `imm32.lo`, the `s1` half. -/
def lo16 (v : Word) : BitVec 16 := v.extractLsb' 0 16

/-- R48, R62: both halves of a seed are below the modulus. -/
def seedLegal (v : Word) : Bool := decide ((hi16 v).toNat < MOD ∧ (lo16 v).toNat < MOD)

/-- R81: `LSUM(lane)`, the horizontal sum of a lane. -/
def lsum : List Byte → Word
  | [] => 0
  | b :: bs => zext32 b + lsum bs

/-- R83, R86: the weighted column sum; the first column has weight `w`, and weights descend by 1.
`VFOLD` calls it with `w = W`, so column `j` has weight `W - j`. -/
def weightedSum : Nat → List Word → Word
  | _, [] => 0
  | w, c :: cs => BitVec.ofNat 32 w * c + weightedSum (w - 1) cs

/-- R95: `FINALIZE(s1, s2)`. -/
def finalize (s1 s2 : Word) : Word := s2 <<< 16 ||| s1

end Sys2Proof.Machine
end

