-- ==== Sys2Proof/Machine/Ops.lean ====
section
/-! DEFINITION. The operations the commands share: fault entry (R131) and the way out of it (R141,
R150), the phase checks (R23, R130), the outputs (R33, R34), the latch, and the micro-operations
REDUCE, ACC1, VACC and VFOLD (R70, R71, R82, R83). -/

namespace Sys2Proof.Machine

/-- R132: the cause code. -/
def Cause.code : Cause → BitVec 8
  | .illegal => 1
  | .phase => 2
  | .seed => 3
  | .nock => 4
  | .serovr => 5

namespace State

/-- R131: `raise Fault(code)`: ERR takes the opcode byte and the code, PHASE becomes FAULT, nothing
else is written and nothing is emitted. -/
def raise (op : Byte) (c : Cause) (s : State) : State :=
  { s with err := op ++ c.code, phase := .fault }

/-- R150: the host's reset, the only way out of FAULT (R141): every register at its reset value, a
new run with its own empty stream and trace. A move between steps, never inside one (log entry 11). -/
def hostReset (s : State) : State := resetOf s.cfg

/-- R31, R154: the host presents further bytes on CMD. -/
def present (bytes : List Byte) (s : State) : State := { s with cmd := s.cmd ++ bytes }

/-- R130: no command executes in FAULT; in ACTIVE and DONE the command does what `k` says (log
entry 5). -/
def whenLive (s : State) (k : Result) : Result :=
  match s.phase with
  | .active => k
  | .done => k
  | .fault => .fault .phaseFault

/-- R72, R84, R96: the check `PHASE != ACTIVE` of ABS, VABS and FIN: in DONE the command raises
ERR_PHASE (R134), in FAULT nothing executes (R130). -/
def whenActive (op : Opcode) (s : State) (k : Result) : Result :=
  match s.phase with
  | .active => k
  | .done => .next (s.raise op.byte .phase)
  | .fault => .fault .phaseFault

/-- R33 to R35: append an event to the output trace. -/
def emit (e : OutEvent) (s : State) : State := { s with out := s.out ++ [e] }

/-- R9, R105: an RD command that answers: `Rsp(w)` once and no other write. -/
def respond (w : Word) (s : State) : Result := .next (s.emit (.rsp w))

/-- R61, R83: `VN <- 0 ; VS <- 0 ; VA <- 0 ; VC[*] <- 0`. -/
def clearBlock (s : State) : State :=
  { s with vn := 0, vs := 0, va := 0, vc := List.replicate s.cfg.W 0 }

/-- R61, R62: start a computation from the sums `a`, `b`. -/
def start (a b : Word) (s : State) : State :=
  { s.clearBlock with s1 := a, s2 := b, cnt := 0, phase := .active }

/-- R63, R96: `CK <- v ; CKV <- 1 ; SP <- 0`. -/
def latch (v : Word) (s : State) : State := { s with ck := some v, sp := 0 }

/-- R70: `REDUCE()`. -/
def reduce (s : State) : State :=
  { s with s1 := s.s1 % BitVec.ofNat 32 MOD, s2 := s.s2 % BitVec.ofNat 32 MOD, cnt := 0 }

/-- R71: the first two lines of ACC1; `s2` receives the new `s1`. -/
def addByte (b : Byte) (s : State) : State :=
  { s with s1 := s.s1 + zext32 b, s2 := s.s2 + (s.s1 + zext32 b) }

/-- R71: `ACC1(b)`: accumulate a byte, and reduce when it was the last of its stride. -/
def acc1 (b : Byte) (s : State) : State :=
  if s.cnt.toNat = STRIDE - 1 then (s.addByte b).reduce
  else { s.addByte b with cnt := s.cnt + 1 }

/-- R82: `VACC(lane)`; VA receives the VS from before this lane. -/
def vacc (lane : List Byte) (s : State) : State :=
  { s with
    va := s.va + s.vs
    vs := s.vs + lsum lane
    vc := List.zipWith (fun c b => c + zext32 b) s.vc lane
    vn := s.vn + 1 }

/-- R83: S2 after the block and before its reduction, `S2 + (n W) S1 + W VA + Σ (W - j) VC[j]`. -/
def foldedS2 (s : State) : Word :=
  s.s2 + BitVec.ofNat 32 (s.vn.toNat * s.cfg.W) * s.s1 + BitVec.ofNat 32 s.cfg.W * s.va
    + weightedSum s.cfg.W s.vc

/-- R83: `VFOLD()`: fold the pending block into S1 and S2, reduce, clear the block. -/
def vfold (s : State) : State :=
  ({ s with s1 := s.s1 + s.vs, s2 := s.foldedS2 } : State).reduce.clearBlock

/-- R72, R96: `if VN > 0 then VFOLD()`. -/
def foldPending (s : State) : State := if 0 < s.vn.toNat then s.vfold else s

/-- R84: `if CNT != 0 then REDUCE()`. -/
def reducePending (s : State) : State := if s.cnt = 0 then s else s.reduce

/-- R84: `if VN = LANES_MAX then VFOLD()`. -/
def foldFull (s : State) : State := if s.vn.toNat = s.cfg.lanesMax then s.vfold else s

end State

end Sys2Proof.Machine
end

