-- ==== Sys2Proof/Machine/Control.lean ====
section
/-! DEFINITION. The control commands NOP, INIT, SEED and SETCK (R60 to R63). -/

namespace Sys2Proof.Machine

/-- R60: NOP does nothing but take its byte. -/
def execNop (s : State) : Result := s.whenLive (.next s)

/-- R61: INIT starts a computation from the default sums; CK, SP and ERR are not written. -/
def execInit (s : State) : Result := s.whenLive (.next (s.start 1 0))

/-- R62: SEED starts a computation from given reduced sums, `lo` into S1 and `hi` into S2; a half of
65521 or more raises ERR_SEED (R135). -/
def execSeed (imm32 : Word) (s : State) : Result :=
  s.whenLive
    (if seedLegal imm32 then .next (s.start ((lo16 imm32).setWidth 32) ((hi16 imm32).setWidth 32))
     else .next (s.raise Opcode.seed.byte .seed))

/-- R63: SETCK loads the latch with any value and rewinds the serialiser. -/
def execSetck (imm32 : Word) (s : State) : Result := s.whenLive (.next (s.latch imm32))

end Sys2Proof.Machine
end

