-- ==== Sys2Proof/Machine/Finalize.lean ====
section
/-! DEFINITION. Finalisation and the big-endian serialiser: FIN (R96) and SER (R98). -/

namespace Sys2Proof.Machine

/-- R96: the sums FIN finalises: a pending block folded, then the one last reduction. -/
def State.settle (s : State) : State := s.foldPending.reduce

/-- R96: FIN latches the checksum of the message and ends the ACTIVE phase; in DONE it raises
ERR_PHASE. -/
def execFin (s : State) : Result :=
  s.whenActive .fin
    (.next { s.settle.latch (finalize s.settle.s1 s.settle.s2) with phase := .done })

/-- R98: SER puts byte SP of `BE32(CK)` on TX and advances SP. With no checksum latched it raises
ERR_NOCK (R136). `BE32(CK)` has the bytes 0 to 3, so at `SP = 4` there is no byte left and it raises
ERR_SEROVR (R137). -/
def execSer (s : State) : Result :=
  s.whenLive
    (match s.ck with
     | none => .next (s.raise Opcode.ser.byte .nock)
     | some v =>
       match (be32 v)[s.sp.val]? with
       | none => .next (s.raise Opcode.ser.byte .serovr)
       | some b => .next { s.emit (.tx b) with sp := s.sp + 1 })

end Sys2Proof.Machine
end

