-- ==== Sys2Proof/Machine/Read.lean ====
section
/-! DEFINITION. The read commands (R105 to R110): each puts one word on RSP and writes no register. -/

namespace Sys2Proof.Machine

/-- R106: RD.CK answers the latched checksum; with none latched it raises ERR_NOCK (R136). -/
def execRdCk (s : State) : Result :=
  s.whenLive
    (match s.ck with
     | none => .next (s.raise Opcode.rdCk.byte .nock)
     | some v => s.respond v)

/-- R107: RD.S1 answers S1 as it stands. -/
def execRdS1 (s : State) : Result := s.whenLive (s.respond s.s1)

/-- R108: RD.S2 answers S2 as it stands. -/
def execRdS2 (s : State) : Result := s.whenLive (s.respond s.s2)

/-- R109: RD.STATUS answers the STATUS word. -/
def execRdStatus (s : State) : Result := s.whenLive (s.respond s.status)

/-- R110: RD.CAP answers the CAP word. -/
def execRdCap (s : State) : Result := s.whenLive (s.respond s.cfg.cap)

end Sys2Proof.Machine
end

