-- ==== Sys2Proof/Machine/Scalar.lean ====
section
/-! DEFINITION. The scalar path: ABS (R72). -/

namespace Sys2Proof.Machine

/-- R72: ABS folds a pending block and then accumulates one byte; in DONE it raises ERR_PHASE. -/
def execAbs (imm8 : Byte) (s : State) : Result :=
  s.whenActive .abs (.next (s.foldPending.acc1 imm8))

end Sys2Proof.Machine
end

