-- ==== Sys2Proof/Machine/Vector.lean ====
section
/-! DEFINITION. The vectorised path: VABS with the vector path present (R84) and without it (R85). -/

namespace Sys2Proof.Machine

/-- R84: reduce a pending stride, accumulate the lane, fold a full block. -/
def State.absorbLane (lane : List Byte) (s : State) : State :=
  (s.reducePending.vacc lane).foldFull

/-- R85: the fall-back: `W` times ACC1, in lane order, in one step. -/
def State.absorbBytes (lane : List Byte) (s : State) : State :=
  lane.foldl (fun t b => t.acc1 b) s

/-- R84, R85: VABS absorbs a lane by the path the configuration has; in DONE it raises ERR_PHASE. A
lane of another length than `W` is no packet of this engine and is refused (log entry 8). -/
def execVabs (lane : List Byte) (s : State) : Result :=
  if lane.length = s.cfg.W then
    s.whenActive .vabs
      (.next (if s.cfg.hasVector then s.absorbLane lane else s.absorbBytes lane))
  else .refused .laneLength

end Sys2Proof.Machine
end

