-- ==== Sys2Proof/Machine/Dispatch.lean ====
section
/-! DEFINITION. exec: one arm per command of R50, each a call of its meaning. -/

namespace Sys2Proof.Machine

/-- R50, R130: execute one command whose packet has been taken from CMD. -/
def exec (i : Instr) (s : State) : Host.Outcome State Fault Refusal :=
  match i with
  | .nop => Sys2Proof.Machine.execNop s
  | .init => Sys2Proof.Machine.execInit s
  | .seed imm32 => Sys2Proof.Machine.execSeed imm32 s
  | .setck imm32 => Sys2Proof.Machine.execSetck imm32 s
  | .abs imm8 => Sys2Proof.Machine.execAbs imm8 s
  | .vabs lane => Sys2Proof.Machine.execVabs lane s
  | .fin => Sys2Proof.Machine.execFin s
  | .ser => Sys2Proof.Machine.execSer s
  | .rdCk => Sys2Proof.Machine.execRdCk s
  | .rdS1 => Sys2Proof.Machine.execRdS1 s
  | .rdS2 => Sys2Proof.Machine.execRdS2 s
  | .rdStatus => Sys2Proof.Machine.execRdStatus s
  | .rdCap => Sys2Proof.Machine.execRdCap s

end Sys2Proof.Machine
end

