-- ==== Sys2Proof/Machine/Fetch.lean ====
section
/-! DEFINITION. What stands at the head of the CMD stream, and how an instruction is put there (R31,
R51). -/

namespace Sys2Proof.Machine

/-- R31, R51: decode the head of the CMD stream with this engine's lane width. -/
def State.fetch (s : State) : Decoded := decode s.cfg s.cmd

/-- R31: the CMD stream after a packet has been taken. -/
def State.advance (rest : List Byte) (s : State) : State := { s with cmd := rest }

/-- The packet at the head of a byte sequence (R51): what the bytes behind it are does not matter. -/
def headPacket (c : Config) : List Byte → List Byte
  | [] => []
  | op :: rest => (op :: rest).take (packetLength c op)

/-- The packet of a table row's number put at the head of the CMD stream, before the bytes already
there (log entry 13). -/
def State.placePacket (s : State) (nbits w : Nat) : State :=
  { s with cmd := headPacket s.cfg (tableBytes (1 + s.cfg.W) nbits w) ++ s.cmd }

end Sys2Proof.Machine
end

