-- ==== Sys2Proof/Machine/Cycle.lean ====
section
/-! DEFINITION. The frame of a step around exec (R130). -/

namespace Sys2Proof.Machine

/-- R130: no step in FAULT; else take the next packet of CMD and execute it. A reserved opcode byte
is taken alone and raises ERR_ILLEGAL (R133); a packet cut short holds (R31); an empty stream ends
the run (R153). -/
def State.cycle (s : State) : Result :=
  s.whenLive
    (match s.fetch with
     | .empty => .fault .streamEnded
     | .held => .fault .held
     | .reserved op rest => .next ((s.advance rest).raise op .illegal)
     | .packet i rest => exec i (s.advance rest))

end Sys2Proof.Machine
end

