-- ==== Sys2Proof/Machine/Step.lean ====
section
/-! DEFINITION. One step of the engine, and the instruction that its next step runs. -/

namespace Sys2Proof.Machine

/-- R130, R31: one atomic step of the engine. -/
def step (s : State) : Host.Outcome State Fault Refusal := s.cycle

/-- The state with a table row's instruction as the next packet of CMD (log entry 13). -/
def State.withFetchWord (s : State) (nbits w : Nat) : State := s.placePacket nbits w

end Sys2Proof.Machine
end

