-- ==== Sys2Proof/Machine/Assembler.lean ====
section
/-! DEFINITION. The text form of a command (R54) and the pseudo-instructions DATA, VDATA, TRAILER and
CHECKSUM (R55 to R57). The packet the assembler emits for a command is `encode` (R54). -/

namespace Sys2Proof

namespace Assembler

/-- R54, R55: the ASCII bytes of a quoted text, with no terminator. -/
def ascii (text : String) : List Byte := text.toList.map fun ch => BitVec.ofNat 8 ch.toNat

/-- R55: `DATA` is one ABS for each byte. -/
def data (bytes : List Byte) : List Instr := bytes.map .abs

/-- R56: `n` lanes of `w` bytes, then the remaining bytes by ABS. -/
def lanesThenData (w : Nat) : Nat → List Byte → List Instr
  | 0, bytes => data bytes
  | n + 1, bytes => .vabs (bytes.take w) :: lanesThenData w n (bytes.drop w)

/-- R56: `VDATA` is `floor(n / W)` VABS commands followed by `n mod W` ABS commands. -/
def vdata (c : Config) (bytes : List Byte) : List Instr :=
  lanesThenData c.W (bytes.length / c.W) bytes

/-- R57: `TRAILER` is four SER commands. -/
def trailer : List Instr := [.ser, .ser, .ser, .ser]

/-- R57: `CHECKSUM <bytes>` is INIT, VDATA, FIN, RD.CK. -/
def checksum (c : Config) (bytes : List Byte) : List Instr :=
  .init :: vdata c bytes ++ [.fin, .rdCk]

/-- R54: one upper-case hexadecimal digit. -/
def hexDigit (n : Nat) : Char := "0123456789ABCDEF".toList.getD n '0'

/-- R54: a byte as two hexadecimal digits. -/
def hexByte (b : Byte) : List Char := [hexDigit (b.toNat / 16), hexDigit (b.toNat % 16)]

/-- R54: `0x` and the digits of some bytes, the first byte first. -/
def hex (bytes : List Byte) : List Char := '0' :: 'x' :: bytes.flatMap hexByte

/-- R54: the text of a command, one line of assembler: mnemonic and operands, immediates written most
significant digit first and the bytes of a lane in message order. -/
def text : Instr → List Char
  | .nop => "NOP".toList
  | .init => "INIT".toList
  | .seed v => "SEED ".toList ++ hex (be32 v)
  | .setck v => "SETCK ".toList ++ hex (be32 v)
  | .abs b => "ABS ".toList ++ hex [b]
  | .vabs lane => "VABS ".toList ++ (", ".toList).intercalate (lane.map fun b => hex [b])
  | .fin => "FIN".toList
  | .ser => "SER".toList
  | .rdCk => "RD.CK".toList
  | .rdS1 => "RD.S1".toList
  | .rdS2 => "RD.S2".toList
  | .rdStatus => "RD.STATUS".toList
  | .rdCap => "RD.CAP".toList

end Assembler

end Sys2Proof
end

