-- ==== Sys2Proof/Machine/Reference.lean ====
section
/-! DEFINITION. The mathematical function the engine computes (R113), the message of a command sequence
(R32), the combination law's function (R121) and the container the host builds around the trailer
(R99). No command and no step uses these. -/

namespace Sys2Proof.Machine

/-- R113: one byte of the reference function, reduced after every byte. -/
def a32Step (p : Nat × Nat) (m : Byte) : Nat × Nat :=
  ((p.1 + m.toNat) % MOD, (p.2 + (p.1 + m.toNat) % MOD) % MOD)

/-- R113: the pair `(a_N, b_N)`. -/
def a32Sums (seed : Nat × Nat) (msg : List Byte) : Nat × Nat := msg.foldl a32Step seed

/-- R113: `A32REF(seed, msg) = b_N * 65536 + a_N`. -/
def a32ref (seed : Nat × Nat) (msg : List Byte) : Nat :=
  (a32Sums seed msg).2 * 65536 + (a32Sums seed msg).1

/-- R113: `ADLER32(msg) = A32REF((1, 0), msg)`. -/
def adler32 (msg : List Byte) : Nat := a32ref (1, 0) msg

/-- R89: the sums after a byte sequence with no reduction at all: `s1 += byte; s2 += s1`. -/
def rawSums (seed : Nat × Nat) (msg : List Byte) : Nat × Nat :=
  msg.foldl (fun p m => (p.1 + m.toNat, p.2 + (p.1 + m.toNat))) seed

/-- R83: the S2 line of VFOLD in natural numbers, for a block of `n` lanes of `W` bytes with column
sums `vc`. -/
def exactFold (W n s1 s2 va : Nat) (vc : List Nat) : Nat :=
  s2 + n * W * s1 + W * va + ((List.range W).map fun j => (W - j) * vc.getD j 0).sum

/-- R120: `halves(c) = (c[15:0], c[31:16])`. -/
def halves (c : Nat) : Nat × Nat := (c % 65536, c / 65536)

/-- R121: the checksum of `A ++ B` from those of `A` and `B` and the length of `B`, in the exact
unsigned form. -/
def combine (cA cB lenB : Nat) : Nat :=
  ((halves cA).2 + (halves cB).2 + lenB % MOD * (((halves cA).1 + 65520) % MOD)) % MOD * 65536
    + ((halves cA).1 + (halves cB).1 + 65520) % MOD

/-- R32: the message bytes one command carries. -/
def absorbed : Instr → List Byte
  | .abs b => [b]
  | .vabs lane => lane
  | .nop => []
  | .init => []
  | .seed _ => []
  | .setck _ => []
  | .fin => []
  | .ser => []
  | .rdCk => []
  | .rdS1 => []
  | .rdS2 => []
  | .rdStatus => []
  | .rdCap => []

/-- R115: the two commands that absorb message bytes. -/
def absorbs : Instr → Bool
  | .abs _ => true
  | .vabs _ => true
  | .nop => false
  | .init => false
  | .seed _ => false
  | .setck _ => false
  | .fin => false
  | .ser => false
  | .rdCk => false
  | .rdS1 => false
  | .rdS2 => false
  | .rdStatus => false
  | .rdCap => false

/-- R32: the message a sequence of commands carries, in command order. -/
def message (is : List Instr) : List Byte := is.flatMap absorbed

/-- R99: the container of the source, built by the host: header, compressed body, and the four bytes
SER puts out. -/
def container (body : List Byte) (c : Word) : List Byte := 0x78 :: 0x5E :: body ++ be32 c

end Sys2Proof.Machine
end

