-- ==== Sys2Proof/Safety.lean ====
section
/-! DEFINITION. The terms claims use: how a run ends (R153), the invariant of the registers (R13, R19,
R74, R88), and the tie between the registers and the reference function (R124). -/

namespace Sys2Proof.Machine

/-- R153: the three ways a run stops; only the first is a normal end. -/
inductive RunEnd where
  | normal
  | faulted
  | held
  deriving DecidableEq, Repr

/-- R153: how the run has ended in this state, if it has. -/
def State.runEnd (s : State) : Option RunEnd :=
  match s.phase, s.fetch with
  | .fault, _ => some .faulted
  | _, .empty => some .normal
  | _, .held => some .held
  | _, .reserved _ _ => none
  | _, .packet _ _ => none

/-- R132: the values ERR can take when a fault is taken. -/
def errLegal (e : BitVec 16) : Bool :=
  (e.extractLsb' 0 8 == 1 && Opcode.ofByte? (e.extractLsb' 8 8) == none)
    || [0x1002#16, 0x1102#16, 0x2002#16, 0x0203#16, 0x2104#16, 0x3004#16, 0x2105#16].contains e

/-- The register invariants of R13, R14 and R19 between any two steps of a run, with the bounds
behind R74 and R88: all that the sums of a computation need. -/
structure State.SumInv (s : State) : Prop where
  /-- R18: there are `W` columns -/
  columns : s.vc.length = s.cfg.W
  /-- R13: reduced sums whenever `CNT = 0` -/
  reduced : s.cnt = 0 → s.s1.toNat < MOD ∧ s.s2.toNat < MOD
  /-- R74: the bound of S1 in a pending stride of CNT bytes -/
  stride_s1 : s.s1.toNat ≤ MOD - 1 + 255 * s.cnt.toNat
  /-- R74: the bound of S2 in a pending stride of CNT bytes -/
  stride_s2 : s.s2.toNat ≤
    (MOD - 1) * (s.cnt.toNat + 1) + 255 * (s.cnt.toNat * (s.cnt.toNat + 1) / 2)
  /-- R19 (c): a pending block and a pending stride never coexist -/
  exclusive : s.vn ≠ 0 → s.cnt = 0
  /-- R19 (e): a full block is never pending -/
  lanes : s.vn.toNat < s.cfg.lanesMax
  /-- R19 (f): without the vector path no block is ever pending -/
  noVector : s.cfg.hasVector = false → s.vn = 0
  /-- R19 (b): VS is the sum of the columns -/
  blockSum : s.vs.toNat = (s.vc.map BitVec.toNat).sum
  /-- R18, R88: the bound of a column over VN lanes; with no lane it is R19 (a) -/
  columnBound : ∀ c ∈ s.vc, c.toNat ≤ 255 * s.vn.toNat
  /-- R17, R88: the bound of VA over VN lanes; with no lane it is R19 (a) -/
  vaBound : s.va.toNat ≤ 255 * s.cfg.W * (s.vn.toNat * (s.vn.toNat - 1) / 2)

/-- What holds between any two steps of a run: the invariants of the sums, and those of the latch, the
phase and the fault record (R20 to R24). -/
structure State.Inv (s : State) : Prop extends s.SumInv where
  /-- R22, R138: SP has not moved while no checksum is latched -/
  unlatched : s.ck = none → s.sp = 0
  /-- R23, R96: in DONE a checksum is latched and nothing is pending -/
  finalised : s.phase = .done → s.ck ≠ none ∧ s.cnt = 0 ∧ s.vn = 0
  /-- R24: no fault recorded outside FAULT -/
  noErr : s.phase ≠ .fault → s.err = 0
  /-- R24, R132: in FAULT the record is one of those listed -/
  faultErr : s.phase = .fault → errLegal s.err = true

/-- R124: how far a computation has come: the seed pair the last INIT, SEED or reset established and the message since
(R32). -/
structure Progress where
  seed : Nat × Nat
  msg : List Byte
  deriving DecidableEq, Repr

/-- R29, R61: the computation a reset or INIT starts. -/
def Progress.fresh : Progress := ⟨(1, 0), []⟩

/-- R32, R124: the computation after one more command: INIT and a legal SEED start another, ABS and
VABS extend the message, the others leave it. -/
def Progress.after (g : Progress) : Instr → Progress
  | .init => .fresh
  | .seed v => if seedLegal v then ⟨((lo16 v).toNat, (hi16 v).toNat), []⟩ else g
  | .abs b => ⟨g.seed, g.msg ++ [b]⟩
  | .vabs lane => ⟨g.seed, g.msg ++ lane⟩
  | .nop => g
  | .setck _ => g
  | .fin => g
  | .ser => g
  | .rdCk => g
  | .rdS1 => g
  | .rdS2 => g
  | .rdStatus => g
  | .rdCap => g

/-- The sum of some bytes as natural numbers. -/
def byteSum (bytes : List Byte) : Nat := (bytes.map BitVec.toNat).sum

/-- R17: the sum, over the lanes of a block, of the bytes that came before that lane in the block. -/
def priorSum (lanes : List (List Byte)) : Nat :=
  ((List.range lanes.length).map fun i => byteSum (lanes.take i).flatten).sum

/-- R18: the sum of byte `j` of every lane. -/
def columnSum (lanes : List (List Byte)) (j : Nat) : Nat :=
  (lanes.map fun lane => (lane.getD j 0).toNat).sum

/-- R124: the registers agree with the reference function. The message is `head ++ blk`, where `blk`
is the `VN` lanes of the pending block; S1 and S2 are congruent to the sums over `head`, and equal
to them when `CNT = 0`; VS, VA and VC are the sums of R16 to R18 over `blk`. -/
def State.Tracks (s : State) (g : Progress) : Prop :=
  ∃ (head : List Byte) (lanes : List (List Byte)),
    g.msg = head ++ lanes.flatten ∧
    lanes.length = s.vn.toNat ∧
    (∀ lane ∈ lanes, lane.length = s.cfg.W) ∧
    s.s1.toNat % MOD = (a32Sums g.seed head).1 ∧
    s.s2.toNat % MOD = (a32Sums g.seed head).2 ∧
    (s.cnt = 0 → s.s1.toNat = (a32Sums g.seed head).1 ∧ s.s2.toNat = (a32Sums g.seed head).2) ∧
    s.vs.toNat = byteSum lanes.flatten ∧
    s.va.toNat = priorSum lanes ∧
    s.vc.map BitVec.toNat = (List.range s.cfg.W).map (columnSum lanes)

/-- R58: two states between which no decision of a command tells: the configuration, the counters, CKV,
SP, PHASE and ERR agree. -/
def State.SameControl (s s' : State) : Prop :=
  s.cfg = s'.cfg ∧ s.cnt = s'.cnt ∧ s.vn = s'.vn ∧ s.ckv = s'.ckv ∧ s.sp = s'.sp ∧
    s.phase = s'.phase ∧ s.err = s'.err

/-- R113, R115: a command that starts a computation, and the seed pair it establishes. -/
def Starts (i : Instr) (seed : Nat × Nat) : Prop :=
  (i = .init ∧ seed = (1, 0)) ∨
    ∃ v, i = .seed v ∧ seedLegal v = true ∧ seed = ((lo16 v).toNat, (hi16 v).toNat)

/-- Execute commands one after another, as `step` does once their packets are taken, stopping at the
first that does not answer a next state. -/
def execAll : List Instr → State → Result
  | [], s => .next s
  | i :: is, s =>
    match exec i s with
    | .next t => execAll is t
    | .fault r => .fault r
    | .refused r => .refused r

end Sys2Proof.Machine
end

