-- ==== Sys2Proof/Certificates/Slice0/Obligations.lean ====
section
/-! DEFINITION. The statements about the model, for the provers. Each docstring names the rules it
formalises; rules marked [derived] in the spec are the spec's own inferences, and their statements
have basis 'derived' in OBLIGATIONS.json. -/

open Sys2Proof Sys2Proof.Machine

/-! ## Constants and encodings -/

/-- R5, R6, R7: 65521 is the largest prime below 2^16, and 5552 is the largest number of unreduced
accumulations that stays within 32 bits. -/
def Obligations.ConstantsAreAsAudited : Prop :=
  MOD = 65521 ∧ Nat.Prime MOD ∧ (∀ n, MOD < n → n < 2 ^ 16 → ¬ Nat.Prime n) ∧
    NMAX = 5552 ∧ STRIDE = 16 ∧
    ∀ n : Nat, 255 * n * (n + 1) / 2 + (n + 1) * (MOD - 1) ≤ 2 ^ 32 - 1 ↔ n ≤ NMAX

/-- R51, R52: the length of a packet from its first byte, the thirteen opcode bytes, and the 243
reserved ones. -/
def Obligations.OpcodeMapAndPacketLengths : Prop :=
  (∀ (c : Config) (op : Byte),
    packetLength c op =
      if op = 0x10 then 2 else if op = 0x02 ∨ op = 0x03 then 5
      else if op = 0x11 then 1 + c.W else 1) ∧
  (∀ op : Byte, Opcode.ofByte? op = none ↔
    op ∉ [0x00#8, 0x01#8, 0x02#8, 0x03#8, 0x10#8, 0x11#8, 0x20#8, 0x21#8, 0x30#8, 0x31#8, 0x32#8,
      0x33#8, 0x34#8]) ∧
  (((List.range 256).map (BitVec.ofNat 8)).filter
    fun op => Opcode.ofByte? op == none).length = 243

/-- R54 and the vectors E1 to E3, E7, E8 of `95_test_vectors.md`: packets written out byte by byte. -/
def Obligations.WrittenPacketsDecode : Prop :=
  ∀ c : Config,
    decode c [0x02, 0x03, 0xDA, 0x01, 0x95] = .packet (.seed 0x03DA0195) [] ∧
    decode c [0x03, 0x11, 0xE6, 0x03, 0x98] = .packet (.setck 0x11E60398) [] ∧
    decode c [0x10, 0x57] = .packet (.abs 0x57) [] ∧
    decode c [0x21, 0x21] = .packet .ser [0x21] ∧
    decode c [0x01, 0x10, 0x61, 0x20, 0x30] = .packet .init [0x10, 0x61, 0x20, 0x30] ∧
    decode c [0x00] = .packet .nop [] ∧
    decode c [0x20] = .packet .fin [] ∧
    decode c [0x30] = .packet .rdCk [] ∧
    decode c [0x31] = .packet .rdS1 [] ∧
    decode c [0x32] = .packet .rdS2 [] ∧
    decode c [0x33] = .packet .rdStatus [] ∧
    decode c [0x34] = .packet .rdCap [] ∧
    ∀ lane : List Byte, lane.length = c.W → decode c (0x11 :: lane) = .packet (.vabs lane) []

/-- R46 to R51: the packet of every well-formed instruction, at every value of its operands and
whatever bytes stand behind it, decodes to that instruction and leaves those bytes. -/
def Obligations.DecodeOfEncode : Prop :=
  ∀ (c : Config) (i : Instr) (rest : List Byte),
    i.wf c = true → decode c (encode i ++ rest) = .packet i rest

/-- R50 to R52: whatever decodes is well-formed and is the packet of what it decodes to, so one
instruction has one packet; and a byte sequence has no packet only if it is empty, begins with a
reserved byte, or is shorter than its first byte says. -/
def Obligations.EncodeOfDecode : Prop :=
  ∀ (c : Config) (bytes : List Byte),
    match decode c bytes with
    | .packet i rest => i.wf c = true ∧ bytes = encode i ++ rest
    | .reserved op rest => bytes = op :: rest ∧ Opcode.ofByte? op = none
    | .held => ∃ op rest, bytes = op :: rest ∧ bytes.length < packetLength c op
    | .empty => bytes = []

/-! ## The step frame -/

/-- R130: outside FAULT, a step whose CMD stream decodes to an instruction is exec of that instruction
with its packet taken from the stream. -/
def Obligations.StepRunsDecodedInstruction : Prop :=
  ∀ (s : State) (i : Instr) (rest : List Byte),
    s.phase ≠ .fault → decode s.cfg s.cmd = .packet i rest →
      step s = exec i { s with cmd := rest }

/-- R31, R153, P6: a packet cut short holds the engine: no step and no state change; when the host
presents the rest, the instruction executes as if it had arrived whole. -/
def Obligations.TruncatedPacketHolds : Prop :=
  ∀ (s : State) (i : Instr) (p q rest : List Byte),
    s.phase ≠ .fault → i.wf s.cfg = true → p ≠ [] → q ≠ [] → p ++ q = encode i → s.cmd = p →
      step s = .fault .held ∧
        step (s.present (q ++ rest)) = exec i { s with cmd := rest }

/-- R133: a reserved opcode byte is taken alone, faults with `{Op, 1}`, and leaves the bytes behind it
unread, which reset discards; and the accepted neighbours the rule names are accepted. -/
def Obligations.ReservedOpcodeFaults : Prop :=
  (∀ (s : State) (op : Byte) (rest : List Byte),
    s.phase ≠ .fault → s.cmd = op :: rest →
      op ∉ [0x00#8, 0x01#8, 0x02#8, 0x03#8, 0x10#8, 0x11#8, 0x20#8, 0x21#8, 0x30#8, 0x31#8, 0x32#8,
        0x33#8, 0x34#8] →
      step s = .next { s with cmd := rest, err := op ++ 0x01#8, phase := .fault } ∧
      ∀ t, step s = .next t → t.hostReset.cmd = []) ∧
  (Opcode.ofByte? 0x34 = some .rdCap ∧ Opcode.ofByte? 0x35 = none ∧
    Opcode.ofByte? 0x03 = some .setck ∧ Opcode.ofByte? 0x04 = none ∧
    Opcode.ofByte? 0x11 = some .vabs ∧ Opcode.ofByte? 0x12 = none ∧
    Opcode.ofByte? 0x21 = some .ser ∧ Opcode.ofByte? 0x22 = none)

/-- R130, R131, R142: FAULT is absorbing: no step, whatever further bytes the host presents, and no
command executes; only the host's reset leads to a state with PHASE = ACTIVE. -/
def Obligations.FaultPhaseAbsorbs : Prop :=
  ∀ s : State, s.phase = .fault →
    (∀ bytes, step (s.present bytes) = .fault .phaseFault) ∧
    (∀ i : Instr, i.wf s.cfg = true → exec i s = .fault .phaseFault) ∧
    s.hostReset.phase = .active ∧ s.hostReset.err = 0

/-- R153: a state has a step exactly when its run has not ended, and each of the three ways to end is
the step's reason to have none. In particular no step is refused. -/
def Obligations.StepExistsUntilRunEnds : Prop :=
  ∀ s : State,
    (s.runEnd = none ↔ ∃ t, step s = .next t) ∧
    (s.runEnd = some .normal ↔ step s = .fault .streamEnded) ∧
    (s.runEnd = some .faulted ↔ step s = .fault .phaseFault) ∧
    (s.runEnd = some .held ↔ step s = .fault .held)

/-- R31: a step takes exactly the packet its first byte announces; it skips, re-reads and looks ahead
at nothing, so with any other bytes behind that packet it does the same. -/
def Obligations.StepTakesExactlyOnePacket : Prop :=
  ∀ s t : State, step s = .next t →
    ∃ op rest, s.cmd = op :: rest ∧ packetLength s.cfg op ≤ s.cmd.length ∧
      t.cmd = s.cmd.drop (packetLength s.cfg op) ∧
      ∀ tail, step { s with cmd := s.cmd.take (packetLength s.cfg op) ++ tail } =
        .next { t with cmd := tail }

/-- R158: from every state the engine comes to a stop within as many steps as CMD has bytes, and it is
a stop by one of the reasons of R153, never a refusal. -/
def Obligations.EveryRunStops : Prop :=
  ∀ s : State, ∃ n ≤ s.cmd.length, ∃ (t : State) (r : Fault),
    Host.Core.run Sys2Proof.core n s = .next t ∧ step t = .fault r

/-! ## Control commands -/

/-- R60: NOP has no operand, takes one byte of CMD, and changes nothing else, in ACTIVE and in DONE. -/
def Obligations.NopChangesNothing : Prop :=
  encode .nop = [0x00] ∧
  ∀ s : State, s.phase ≠ .fault →
    exec .nop s = .next s ∧
    ∀ rest, s.cmd = 0x00 :: rest → step s = .next { s with cmd := rest }

/-- R61: INIT writes S1, S2, CNT, VN, VS, VA, VC and PHASE, and nothing else, whatever was pending;
after reset it changes nothing; INIT and FIN yield the checksum of the empty message. -/
def Obligations.InitStartsDefaultComputation : Prop :=
  encode .init = [0x01] ∧
  (∀ s : State, s.phase ≠ .fault →
    exec .init s = .next { s with
      s1 := 1, s2 := 0, cnt := 0, vn := 0, vs := 0, va := 0, vc := List.replicate s.cfg.W 0,
      phase := .active } ∧
    ∃ t, execAll [.init, .fin] s = .next t ∧ t.ck = some 0x00000001) ∧
  ∀ c : Config, exec .init (State.resetOf c) = .next (State.resetOf c)

/-- R62: a SEED both of whose halves are below 65521 starts a computation from them, S1 from the low
half and S2 from the high half, and writes nothing else; `SEED 0x00000001` is INIT. -/
def Obligations.SeedStartsGivenComputation : Prop :=
  (∀ (s : State) (v : Word), s.phase ≠ .fault →
    v.toNat / 65536 < 65521 → v.toNat % 65536 < 65521 →
    ∃ t, exec (.seed v) s = .next t ∧
      t.s1.toNat = v.toNat % 65536 ∧ t.s2.toNat = v.toNat / 65536 ∧
      t = { s with
        s1 := t.s1, s2 := t.s2, cnt := 0, vn := 0, vs := 0, va := 0,
        vc := List.replicate s.cfg.W 0, phase := .active }) ∧
  ∀ s : State, exec (.seed 0x00000001) s = exec .init s

/-- R135: a SEED with a half of 65521 or more faults with ERR = 0x0203 and writes nothing else; the
neighbours the rule names. -/
def Obligations.SeedOutOfRangeFaults : Prop :=
  ∀ s : State, s.phase ≠ .fault →
    (∀ v : Word, 65521 ≤ v.toNat / 65536 ∨ 65521 ≤ v.toNat % 65536 →
      exec (.seed v) s = .next { s with err := 0x0203, phase := .fault }) ∧
    (∃ t, exec (.seed 0xFFF0FFF0) s = .next t ∧ t.phase = .active) ∧
    (∃ t, exec (.seed 0xFFF1FFF0) s = .next t ∧ t.phase = .fault) ∧
    ∃ t, exec (.seed 0xFFF0FFF1) s = .next t ∧ t.phase = .fault

/-- R63: SETCK loads CK with any value, sets CKV, rewinds SP, and writes nothing else, in ACTIVE and in
DONE; RD.CK then answers that value. -/
def Obligations.SetckLoadsAnyChecksum : Prop :=
  ∀ (s : State) (v : Word), s.phase ≠ .fault →
    encode (.setck v) = 0x03 :: be32 v ∧
    (∃ t, exec (.setck v) s = .next t ∧ t.ckv = true ∧ t = { s with ck := some v, sp := 0 }) ∧
    execAll [.setck v, .rdCk] s =
      .next { s with ck := some v, sp := 0, out := s.out ++ [.rsp v] }

/-! ## The scalar path -/

/-- R71, R72, R74: with no block pending, ABS adds the byte to S1 and the new S1 to S2, exactly; the
sixteenth byte of a stride reduces both in the same step. Nothing else is written. -/
def Obligations.AbsAccumulatesByte : Prop :=
  ∀ (s : State) (b : Byte), s.SumInv → s.phase = .active → s.vn = 0 →
    ∃ t, exec (.abs b) s = .next t ∧ t = { s with s1 := t.s1, s2 := t.s2, cnt := t.cnt } ∧
      (s.cnt.toNat < 15 →
        t.s1.toNat = s.s1.toNat + b.toNat ∧
        t.s2.toNat = s.s2.toNat + (s.s1.toNat + b.toNat) ∧ t.cnt.toNat = s.cnt.toNat + 1) ∧
      (s.cnt.toNat = 15 →
        t.s1.toNat = (s.s1.toNat + b.toNat) % 65521 ∧
        t.s2.toNat = (s.s2.toNat + (s.s1.toNat + b.toNat)) % 65521 ∧ t.cnt = 0)

/-- R72, R83: with a block pending, ABS first folds it, by the formula of R83 in exact arithmetic, and
then accumulates its byte as the first of a stride. Nothing else is written. -/
def Obligations.AbsFoldsPendingBlock : Prop :=
  ∀ (s : State) (b : Byte), s.SumInv → s.phase = .active → s.vn ≠ 0 →
    ∃ t, exec (.abs b) s = .next t ∧
      t = { s with
        s1 := t.s1, s2 := t.s2, cnt := 1, vn := 0, vs := 0, va := 0,
        vc := List.replicate s.cfg.W 0 } ∧
      t.s1.toNat = (s.s1.toNat + s.vs.toNat) % 65521 + b.toNat ∧
      t.s2.toNat =
        exactFold s.cfg.W s.vn.toNat s.s1.toNat s.s2.toNat s.va.toNat (s.vc.map BitVec.toNat) % 65521
          + t.s1.toNat

/-! ## The vectorised path -/

/-- R82, R84: with the vector path present and room left in the block, VABS reduces a pending stride
and parks the lane: VA receives the old VS, VS the sum of the lane, each column its byte. S1 and S2
keep their residues. Nothing else is written. -/
def Obligations.VabsParksLane : Prop :=
  ∀ (s : State) (lane : List Byte), s.SumInv → s.phase = .active → s.cfg.hasVector = true →
    lane.length = s.cfg.W → s.vn.toNat + 1 < s.cfg.lanesMax →
    ∃ t, exec (.vabs lane) s = .next t ∧
      t = { s with
        s1 := t.s1, s2 := t.s2, cnt := 0, vn := t.vn, vs := t.vs, va := t.va, vc := t.vc } ∧
      t.s1.toNat = s.s1.toNat % 65521 ∧ t.s2.toNat = s.s2.toNat % 65521 ∧
      t.vn.toNat = s.vn.toNat + 1 ∧
      t.vs.toNat = s.vs.toNat + byteSum lane ∧
      t.va.toNat = s.va.toNat + s.vs.toNat ∧
      t.vc.length = s.cfg.W ∧
      ∀ j < s.cfg.W, (t.vc.getD j 0).toNat = (s.vc.getD j 0).toNat + (lane.getD j 0).toNat

/-- R84, R83, R87: the lane that fills the block folds it in the same step, by the formula of R83 in
exact arithmetic over all LANES_MAX lanes. Nothing else is written. -/
def Obligations.VabsFoldsFullBlock : Prop :=
  ∀ (s : State) (lane : List Byte), s.SumInv → s.phase = .active → s.cfg.hasVector = true →
    lane.length = s.cfg.W → s.vn.toNat + 1 = s.cfg.lanesMax →
    ∃ t, exec (.vabs lane) s = .next t ∧
      t = { s with
        s1 := t.s1, s2 := t.s2, cnt := 0, vn := 0, vs := 0, va := 0,
        vc := List.replicate s.cfg.W 0 } ∧
      t.s1.toNat = (s.s1.toNat + (s.vs.toNat + byteSum lane)) % 65521 ∧
      t.s2.toNat =
        exactFold s.cfg.W s.cfg.lanesMax s.s1.toNat s.s2.toNat (s.va.toNat + s.vs.toNat)
          (List.zipWith (fun c b => c.toNat + b.toNat) s.vc lane) % 65521

/-- R85: without the vector path VABS does exactly what `W` ABS commands in lane order do, in one
step; CNT ends at `(CNT + W) mod 16` and VN stays 0. -/
def Obligations.VabsFallsBackToScalar : Prop :=
  ∀ (s : State) (lane : List Byte), s.phase = .active → s.cfg.hasVector = false → s.vn = 0 →
    lane.length = s.cfg.W →
    ∃ t, exec (.vabs lane) s = .next t ∧ execAll (lane.map .abs) s = .next t ∧
      t.cnt.toNat = (s.cnt.toNat + s.cfg.W) % 16 ∧
      t = { s with s1 := t.s1, s2 := t.s2, cnt := t.cnt }

/-- R49, R51 (log entry 8): the one stop of a meaning outside FAULT. A VABS whose lane is not `W` bytes
is refused by name; no byte sequence decodes to one, and no step is ever refused. -/
def Obligations.OnlyWholeLanesExecute : Prop :=
  (∀ (s : State) (lane : List Byte), lane.length ≠ s.cfg.W →
    exec (.vabs lane) s = .refused .laneLength ∧
      ∀ bytes rest, decode s.cfg bytes ≠ .packet (.vabs lane) rest) ∧
  ∀ (s : State) (r : Refusal), step s ≠ .refused r

/-- R134: in DONE, ABS, VABS and FIN fault with code 2 and write nothing else; a computation started
again by INIT or by a legal SEED accepts message bytes. -/
def Obligations.CommandsAfterFinFault : Prop :=
  (∀ s : State, s.phase = .done →
    (∀ b, exec (.abs b) s = .next { s with err := 0x1002, phase := .fault }) ∧
    (∀ lane, lane.length = s.cfg.W →
      exec (.vabs lane) s = .next { s with err := 0x1102, phase := .fault }) ∧
    exec .fin s = .next { s with err := 0x2002, phase := .fault }) ∧
  ∀ (s : State) (b : Byte), s.phase = .active →
    (∃ t, execAll [.fin, .init, .abs b] s = .next t ∧ t.phase = .active) ∧
    (∃ t, execAll [.fin, .abs b] s = .next t ∧ t.phase = .fault) ∧
    ∀ v, seedLegal v = true → ∃ t, execAll [.fin, .seed v, .abs b] s = .next t ∧ t.phase = .active

/-- R74, R88, R155: under the invariant no exact sum that ABS, VABS or FIN forms reaches 2^32: the
bounds the rules compute hold, so 32-bit adders and natural numbers agree. -/
def Obligations.NoSumReachesWordSize : Prop :=
  ∀ s : State, s.SumInv →
    (s.vn = 0 → ∀ b : Byte,
      s.s1.toNat + b.toNat ≤ 69600 ∧ s.s2.toNat + (s.s1.toNat + b.toNat) ≤ 1148520) ∧
    (s.cnt = 0 →
      s.s1.toNat + s.vs.toNat ≤ 1481280 ∧
      exactFold s.cfg.W s.vn.toNat s.s1.toNat s.s2.toNat s.va.toNat (s.vc.map BitVec.toNat)
        ≤ 4294690200) ∧
    (s.cnt = 0 → ∀ lane : List Byte, lane.length = s.cfg.W →
      s.s1.toNat + (s.vs.toNat + byteSum lane) ≤ 1481280 ∧
      s.va.toNat + s.vs.toNat ≤ 244926480 ∧
      (∀ j < s.cfg.W, (s.vc.getD j 0).toNat + (lane.getD j 0).toNat ≤ 88485) ∧
      exactFold s.cfg.W (s.vn.toNat + 1) s.s1.toNat s.s2.toNat (s.va.toNat + s.vs.toNat)
        (List.zipWith (fun c b => c.toNat + b.toNat) s.vc lane) ≤ 4294690200)

/-- R89: accumulating up to LANES_MAX lanes into an empty block over reduced sums and folding gives,
before the reduction, exactly the sums of as many unreduced scalar accumulations, and after it the
sums of the reference function. -/
def Obligations.FoldEqualsScalarAccumulation : Prop :=
  ∀ (s u : State) (lanes : List (List Byte)),
    s.s1.toNat < MOD → s.s2.toNat < MOD → s.vn = 0 → s.vs = 0 → s.va = 0 →
    s.vc = List.replicate s.cfg.W 0 →
    (∀ lane ∈ lanes, lane.length = s.cfg.W) → lanes.length ≤ s.cfg.lanesMax →
    u = lanes.foldl (fun v lane => v.vacc lane) s →
    ((u.s1 + u.vs).toNat, u.foldedS2.toNat) = rawSums (s.s1.toNat, s.s2.toNat) lanes.flatten ∧
    (u.vfold.s1.toNat, u.vfold.s2.toNat) = a32Sums (s.s1.toNat, s.s2.toNat) lanes.flatten

/-! ## Finalisation and the serialiser -/

/-- R95, R96: FIN folds a pending block, reduces, latches `s2 * 65536 + s1`, rewinds SP and ends the
ACTIVE phase; nothing else is written. S1 and S2 keep the halves of CK. -/
def Obligations.FinLatchesChecksum : Prop :=
  ∀ s : State, s.SumInv → s.phase = .active →
    ∃ t, exec .fin s = .next t ∧
      t = { s with
        s1 := t.s1, s2 := t.s2, cnt := 0, vn := 0, vs := 0, va := 0,
        vc := List.replicate s.cfg.W 0,
        ck := some (BitVec.ofNat 32 (t.s2.toNat * 65536 + t.s1.toNat)), sp := 0,
        phase := .done } ∧
      t.s1.toNat = (s.s1.toNat + s.vs.toNat) % 65521 ∧
      t.s2.toNat =
        exactFold s.cfg.W s.vn.toNat s.s1.toNat s.s2.toNat s.va.toNat (s.vc.map BitVec.toNat) % 65521

/-- R98: with a checksum latched and `SP < 4`, SER puts byte `(CK >> 8 (3 - SP))[7:0]` on TX and
advances SP; nothing else is written. It does so in ACTIVE and in DONE. -/
def Obligations.SerSendsNextByte : Prop :=
  ∀ (s : State) (v : Word), s.phase ≠ .fault → s.ck = some v → s.sp.val < 4 →
    ∃ t, exec .ser s = .next t ∧ t.sp.val = s.sp.val + 1 ∧
      t = { s with
        sp := t.sp,
        out := s.out ++ [.tx (BitVec.ofNat 8 (v.toNat / 2 ^ (8 * (3 - s.sp.val))))] }

/-- R136, R137: SER and RD.CK with no checksum latched fault with code 4, SER with four bytes sent
faults with code 5, and each writes nothing else; the accepted neighbours the rules name. -/
def Obligations.LatchAndSerialiserFaults : Prop :=
  (∀ s : State, s.phase ≠ .fault → s.ck = none →
    exec .ser s = .next { s with err := 0x2104, phase := .fault } ∧
    exec .rdCk s = .next { s with err := 0x3004, phase := .fault }) ∧
  (∀ (s : State) (v : Word), s.phase ≠ .fault → s.ck = some v → s.sp = 4 →
    exec .ser s = .next { s with err := 0x2105, phase := .fault } ∧
    ∀ w, ∃ t, execAll [.setck w, .ser] s = .next t ∧ t.phase = s.phase) ∧
  ∀ c : Config,
    (∃ t, execAll [.fin, .rdCk] (State.resetOf c) = .next t ∧ t.phase = .done) ∧
    ∃ t, execAll [.fin, .ser, .ser, .ser, .ser] (State.resetOf c) = .next t ∧
      t.phase = .done ∧ t.sp = 4 ∧
      exec .ser t = .next { t with err := 0x2105, phase := .fault } ∧
      ∀ w, ∃ u, execAll [.setck w, .ser] t = .next u ∧ u.phase = .done

/-- R97, R98, R125: from a freshly latched checksum, TRAILER puts exactly `BE32(CK)` on TX, four bytes,
most significant first, a fifth SER faults, and a reader of the last four bytes of a container ended
by them obtains CK. -/
def Obligations.TrailerPutsBigEndianChecksum : Prop :=
  ∀ (s : State) (v : Word), s.phase ≠ .fault → s.ck = some v → s.sp = 0 →
    ∃ t, execAll Assembler.trailer s = .next t ∧
      t = { s with sp := 4, out := s.out ++ (be32 v).map .tx } ∧
      t.txStream = s.txStream ++ be32 v ∧
      (be32 v).map BitVec.toNat =
        [v.toNat / 2 ^ 24, v.toNat / 2 ^ 16 % 256, v.toNat / 2 ^ 8 % 256, v.toNat % 256] ∧
      exec .ser t = .next { t with err := 0x2105, phase := .fault } ∧
      ∀ body, ofBE32 ((container body v).drop ((container body v).length - 4)) = v

/-! ## Read commands -/

/-- R105 to R108: RD.CK with a checksum latched, RD.S1 and RD.S2 each put their register on RSP as it
stands and write nothing else, in ACTIVE and in DONE. -/
def Obligations.ReadsAnswerRegisters : Prop :=
  ∀ s : State, s.phase ≠ .fault →
    (∀ v, s.ck = some v → exec .rdCk s = .next { s with out := s.out ++ [.rsp v] }) ∧
    exec .rdS1 s = .next { s with out := s.out ++ [.rsp s.s1] } ∧
    exec .rdS2 s = .next { s with out := s.out ++ [.rsp s.s2] }

/-- R25, R109: RD.STATUS answers the word made of PHASE (0 or 1, never 3), CKV, SP, CNT and VN, each in
its own bits, and writes nothing else. -/
def Obligations.ReadStatusShowsSequencing : Prop :=
  ∀ s : State, s.phase ≠ .fault →
    ∃ w : Word, exec .rdStatus s = .next { s with out := s.out ++ [.rsp w] } ∧
      w.toNat =
        (if s.phase = .done then 1 else 0) + 4 * (if s.ckv then 1 else 0) + 8 * s.sp.val
          + 256 * s.cnt.toNat + 65536 * s.vn.toNat ∧
      (w.extractLsb' 0 2).toNat < 2 ∧
      w.extractLsb' 6 2 = 0 ∧ w.extractLsb' 12 4 = 0

/-- R26, R110: RD.CAP answers the word made of W, HAS_VECTOR and `floor(5552 / W)`, each in its own
bits, writes nothing else, and answers the same word at every point of a run, since no step changes
the configuration. -/
def Obligations.ReadCapShowsConfiguration : Prop :=
  (∀ s : State, s.phase ≠ .fault →
    ∃ w : Word, exec .rdCap s = .next { s with out := s.out ++ [.rsp w] } ∧
      w.toNat =
        s.cfg.W + 256 * (if s.cfg.hasVector then 1 else 0) + 65536 * (5552 / s.cfg.W) ∧
      w.extractLsb' 9 7 = 0) ∧
  ∀ s t : State, step s = .next t →
    ∀ u, exec .rdCap s = .next u → t.phase ≠ .fault →
      ∃ e, u.out = s.out ++ [e] ∧ exec .rdCap t = .next { t with out := t.out ++ [e] }

/-! ## Rules of the whole machine -/

/-- R131, R132, R24: a step that takes a fault writes ERR and PHASE and nothing else, emits nothing,
and records one of the listed values; a step that takes none leaves ERR alone. -/
def Obligations.FaultEntryWritesOnlyItsRecord : Prop :=
  ∀ s t : State, step s = .next t →
    (t.phase = .fault →
      t = { s with cmd := t.cmd, err := t.err, phase := .fault } ∧ errLegal t.err = true) ∧
    (t.phase ≠ .fault → t.err = s.err)

/-- R132, R139: outside FAULT every well-formed command answers a next state, and it is a fault entry
exactly under the conditions of the list of causes; no condition is about a message byte. -/
def Obligations.CommandFaultsExactlyWhenListed : Prop :=
  ∀ (i : Instr) (s : State), s.phase ≠ .fault → i.wf s.cfg = true →
    ∃ t, exec i s = .next t ∧
      (t.phase = .fault ↔
        (s.phase = .done ∧ i.opcode ∈ [.abs, .vabs, .fin]) ∨
        (∃ v : Word, i = .seed v ∧ (65521 ≤ v.toNat / 65536 ∨ 65521 ≤ v.toNat % 65536)) ∨
        (s.ck = none ∧ i.opcode ∈ [.ser, .rdCk]) ∨
        (s.ck ≠ none ∧ s.sp = 4 ∧ i = .ser))

/-- R23: the only transitions of PHASE: INIT and SEED to ACTIVE, FIN from ACTIVE to DONE, a fault from
ACTIVE or DONE to FAULT; every other command leaves PHASE. -/
def Obligations.PhaseTransitions : Prop :=
  ∀ (i : Instr) (s t : State), exec i s = .next t → t.phase ≠ .fault →
    s.phase ≠ .fault ∧
    (i.opcode ∈ [.init, .seed] → t.phase = .active) ∧
    (i.opcode = .fin → s.phase = .active ∧ t.phase = .done) ∧
    (i.opcode ∉ [.init, .seed, .fin] → t.phase = s.phase)

/-- R20 to R22: no step clears CKV; CK is written by FIN and SETCK alone, and SP by FIN, SETCK and SER
alone. -/
def Obligations.LatchWrittenOnlyByFinAndSetck : Prop :=
  (∀ s t : State, step s = .next t → s.ckv = true → t.ckv = true) ∧
  ∀ (i : Instr) (s t : State), exec i s = .next t →
    (i.opcode ∉ [.fin, .setck] → t.ck = s.ck) ∧
    (i.opcode ∉ [.fin, .setck, .ser] → t.sp = s.sp)

/-- R33 to R35: a command that takes no fault appends one byte to TX if it is SER, one word to RSP if
it is an RD, and nothing otherwise; a fault appends nothing. -/
def Obligations.OutputsOnlyFromSerAndReads : Prop :=
  ∀ (i : Instr) (s t : State), exec i s = .next t →
    (t.phase = .fault → t.out = s.out) ∧
    (t.phase ≠ .fault →
      if i = .ser then ∃ b, t.out = s.out ++ [.tx b]
      else if i.opcode ∈ [.rdCk, .rdS1, .rdS2, .rdStatus, .rdCap] then
        ∃ w, t.out = s.out ++ [.rsp w]
      else t.out = s.out)

/-- R58: what a command decides depends on its opcode and the control state, never on the message
bytes or the sums: from two states that agree on the control state, two commands of one opcode
(SEED apart, whose range check looks at its immediate) lead to states that agree on it again. -/
def Obligations.OpcodesAloneDriveSequencing : Prop :=
  ∀ (i i' : Instr) (s s' t : State),
    i.opcode = i'.opcode → i.opcode ≠ .seed → i.wf s.cfg = true → i'.wf s'.cfg = true →
    s.SameControl s' → exec i s = .next t →
    ∃ t', exec i' s' = .next t' ∧ t.SameControl t'

/-- R29: after reset, whatever the state was, every register has the value of the table, CK has none and
reading it faults, STATUS is 0, the trace is empty, and the first byte the host presents is taken as an
opcode byte. The state a run starts from is such a state. -/
def Obligations.ResetRestoresEveryRegister : Prop :=
  ∀ s : State,
    s.hostReset.s1 = 1 ∧ s.hostReset.s2 = 0 ∧ s.hostReset.cnt = 0 ∧ s.hostReset.vn = 0 ∧
    s.hostReset.vs = 0 ∧ s.hostReset.va = 0 ∧
    s.hostReset.vc.length = s.cfg.W ∧ (∀ c ∈ s.hostReset.vc, c = 0) ∧
    s.hostReset.ck = none ∧ s.hostReset.ckv = false ∧ s.hostReset.sp = 0 ∧
    s.hostReset.phase = .active ∧ s.hostReset.err = 0x0000 ∧
    s.hostReset.status = 0x00000000 ∧ s.hostReset.out = [] ∧ s.hostReset.cfg = s.cfg ∧
    exec .rdCk s.hostReset = .next { s.hostReset with err := 0x3004, phase := .fault } ∧
    (∀ bytes, (s.hostReset.present bytes).fetch = decode s.cfg bytes) ∧
    State.reset.hostReset = State.reset

/-- R35, R23: the STAT port shows PHASE (0, 1 or 3) in bits 1:0, CKV in bit 2 and ERR in bits 18:3, and
stays as it is while there is no step. -/
def Obligations.StatPortShowsRecord : Prop :=
  ∀ s : State,
    s.stat.toNat =
      (match s.phase with
       | .active => 0
       | .done => 1
       | .fault => 3) + 4 * (if s.ckv then 1 else 0) + 8 * s.err.toNat ∧
    ∀ bytes, (s.present bytes).stat = s.stat

/-! ## Invariants and the reference function -/

/-- R29: the invariant holds after reset, for every configuration. -/
def Obligations.InvAtReset : Prop := ∀ c : Config, (State.resetOf c).Inv

/-- R13, R19, R74, R88, R20 to R24: every step keeps the invariant, from every state that has it; and
it keeps the part about the sums by itself. -/
def Obligations.StepKeepsInv : Prop :=
  ∀ s t : State, step s = .next t → (s.Inv → t.Inv) ∧ (s.SumInv → t.SumInv)

/-- R13, R19: what the invariant of the sums says, in the words of the rules. -/
def Obligations.InvGivesVectorInvariants : Prop :=
  ∀ s : State, s.SumInv →
    (s.vn = 0 → s.vs = 0 ∧ s.va = 0 ∧ s.vc = List.replicate s.cfg.W 0) ∧
    s.vs.toNat = ((List.range s.cfg.W).map fun j => (s.vc.getD j 0).toNat).sum ∧
    (0 < s.vn.toNat → s.cnt = 0) ∧
    (0 < s.vn.toNat → s.s1.toNat < 65521 ∧ s.s2.toNat < 65521) ∧
    s.vn.toNat ≤ 5552 / s.cfg.W - 1 ∧
    (s.cfg.hasVector = false → s.vn = 0) ∧
    (s.cnt = 0 → s.s1.toNat < 65521 ∧ s.s2.toNat < 65521)

/-- R124, R29: after reset the registers agree with the reference function at the seed (1, 0) and the
empty message. -/
def Obligations.TracksAtReset : Prop := ∀ c : Config, (State.resetOf c).Tracks .fresh

/-- R124: every command that takes no fault keeps the tie between the registers and the reference
function: INIT and SEED start another computation, ABS and VABS extend the message, the others leave
it. -/
def Obligations.CommandsKeepTracks : Prop :=
  ∀ (i : Instr) (s t : State) (g : Progress),
    s.SumInv → s.Tracks g → exec i s = .next t → t.phase ≠ .fault → t.Tracks (g.after i)

/-- R113, R124: FIN latches the value of the reference function at the seed and message of the
computation. -/
def Obligations.FinLatchesReference : Prop :=
  ∀ (s : State) (g : Progress), s.SumInv → s.Tracks g → s.phase = .active →
    ∃ t, exec .fin s = .next t ∧ t.ck = some (BitVec.ofNat 32 (a32ref g.seed g.msg)) ∧
      t.s1.toNat = (a32Sums g.seed g.msg).1 ∧ t.s2.toNat = (a32Sums g.seed g.msg).2

/-- R113, R57, R115: the source's `checksum(bytes) -> uint32`: from any state outside FAULT whose CMD
holds the stream of `CHECKSUM bytes`, the engine runs it to a normal end and has put exactly one
word more on the trace, `ADLER32(bytes)`. -/
def Obligations.ChecksumStreamAnswersAdler32 : Prop :=
  ∀ (s : State) (bytes : List Byte), s.phase ≠ .fault →
    s.cmd = encodeAll (Assembler.checksum s.cfg bytes) →
    ∃ t : State,
      Host.Core.run Sys2Proof.core (Assembler.checksum s.cfg bytes).length s = .next t ∧
      t.runEnd = some .normal ∧ t.phase = .done ∧
      adler32 bytes < 2 ^ 32 ∧
      t.out = s.out ++ [.rsp (BitVec.ofNat 32 (adler32 bytes))]

/-- R113, R115, R139: a stream that starts a computation with INIT or a legal SEED, absorbs bytes by
any mixture of ABS and VABS, and ends with FIN and RD.CK runs to a normal end without a fault and
answers the reference function at that seed and message, whatever the bytes and however many. -/
def Obligations.AnyMixedStreamAnswersReference : Prop :=
  ∀ (s : State) (start : Instr) (seed : Nat × Nat) (cmds : List Instr), s.phase ≠ .fault →
    Starts start seed → (∀ i ∈ cmds, absorbs i = true ∧ i.wf s.cfg = true) →
    s.cmd = encodeAll (start :: cmds ++ [.fin, .rdCk]) →
    ∃ t : State,
      Host.Core.run Sys2Proof.core (cmds.length + 3) s = .next t ∧
      t.runEnd = some .normal ∧ t.phase = .done ∧
      a32ref seed (message cmds) < 2 ^ 32 ∧
      t.out = s.out ++ [.rsp (BitVec.ofNat 32 (a32ref seed (message cmds)))]

/-- R116, R32: for one start command and one message, CK after FIN is the same for every way of cutting
the message into ABS and VABS, every lane width and both settings of HAS_VECTOR. -/
def Obligations.CutOfMessageIrrelevant : Prop :=
  ∀ (s s' : State) (start : Instr) (seed : Nat × Nat) (cmds cmds' : List Instr),
    s.phase ≠ .fault → s'.phase ≠ .fault → Starts start seed →
    (∀ i ∈ cmds, absorbs i = true ∧ i.wf s.cfg = true) →
    (∀ i ∈ cmds', absorbs i = true ∧ i.wf s'.cfg = true) →
    message cmds = message cmds' →
    ∃ t t', execAll (start :: cmds ++ [.fin]) s = .next t ∧
      execAll (start :: cmds' ++ [.fin]) s' = .next t' ∧ t.ck = t'.ck ∧ t.ck ≠ none

/-- R117, R118: the checksum of the empty message is 0x00000001, and that of the single byte `v` is
`((1 + v) << 16) | (1 + v)`. -/
def Obligations.EmptyAndSingleByteChecksums : Prop :=
  ∀ s : State, s.phase ≠ .fault →
    (∃ t, execAll [.init, .fin, .rdCk] s = .next t ∧ t.out = s.out ++ [.rsp 0x00000001]) ∧
    ∀ v : Byte, ∃ t, execAll [.init, .abs v, .fin, .rdCk] s = .next t ∧
      t.out = s.out ++ [.rsp (BitVec.ofNat 32 ((1 + v.toNat) * 65536 + (1 + v.toNat)))]

/-- R120: the reference function continued from the checksum of a first part gives the checksum of the
whole, and so does the engine: SEED with the checksum of `A`, the bytes of `B`, FIN. -/
def Obligations.ContinuationFromChecksum : Prop :=
  ∀ A B : List Byte,
    a32ref (halves (adler32 A)) B = adler32 (A ++ B) ∧
    ∀ s : State, s.phase ≠ .fault →
      ∃ t, execAll (.seed (BitVec.ofNat 32 (adler32 A)) :: Assembler.data B ++ [.fin]) s = .next t ∧
        t.ck = some (BitVec.ofNat 32 (adler32 (A ++ B)))

/-- R121: the combination law, in the exact unsigned form and in the source's form over the
integers. -/
def Obligations.CombinationLaw : Prop :=
  ∀ A B : List Byte,
    combine (adler32 A) (adler32 B) B.length = adler32 (A ++ B) ∧
    ((halves (adler32 (A ++ B))).1 : Int) =
      (((halves (adler32 A)).1 : Int) + (halves (adler32 B)).1 - 1) % 65521 ∧
    ((halves (adler32 (A ++ B))).2 : Int) =
      (((halves (adler32 A)).2 : Int) + (halves (adler32 B)).2
        + B.length * ((halves (adler32 A)).1 - 1)) % 65521

/-- R113: the closed form of the reference function. -/
def Obligations.ReferenceClosedForm : Prop :=
  ∀ (a b : Nat) (msg : List Byte), a < 65521 → b < 65521 →
    a32Sums (a, b) msg =
      ((a + byteSum msg) % 65521,
       (b + msg.length * a
        + ((List.range msg.length).map fun k => (msg.length - k) * (msg.getD k 0).toNat).sum) % 65521)

/-- R119: where reductions fall does not matter: reducing after each part of any cut of the message,
from reduced sums, gives the sums of the reference function, which reduces after every byte. -/
def Obligations.ReductionCadenceIrrelevant : Prop :=
  ∀ (seed : Nat × Nat) (parts : List (List Byte)), seed.1 < 65521 → seed.2 < 65521 →
    parts.foldl (fun p part => ((rawSums p part).1 % 65521, (rawSums p part).2 % 65521)) seed =
      a32Sums seed parts.flatten

/-- R55, R56: DATA and VDATA carry exactly their bytes; VDATA is `floor(n / W)` VABS commands, each a
packet of this engine, followed by `n mod W` ABS commands. -/
def Obligations.PseudoInstructionsCarryTheirBytes : Prop :=
  ∀ (c : Config) (bytes : List Byte),
    message (Assembler.data bytes) = bytes ∧ message (Assembler.vdata c bytes) = bytes ∧
    (∀ i ∈ Assembler.vdata c bytes, absorbs i = true ∧ i.wf c = true) ∧
    (Assembler.vdata c bytes).map Instr.opcode =
      List.replicate (bytes.length / c.W) .vabs ++ List.replicate (bytes.length % c.W) .abs
end

