-- ==== Sys2Proof/Laws/Decode.lean ====
section
/-! SUPPORT. Lemmas about the parts of the decoder and encoder: the opcode map is one-to-one, the byte
order of immediates is reversible, and a payload and its instruction determine each other. -/

namespace Sys2Proof

@[simp] theorem Opcode.ofByte?_byte (o : Opcode) : Opcode.ofByte? o.byte = some o := by
  cases o <;> rfl

theorem Opcode.byte_of_ofByte? {op : Byte} {o : Opcode} (h : Opcode.ofByte? op = some o) :
    op = o.byte := by
  apply BitVec.eq_of_toNat_eq
  unfold Opcode.ofByte? at h
  split at h <;> simp at h <;> subst h <;> simpa [Opcode.byte]

@[simp] theorem be32_length (v : Word) : (be32 v).length = 4 := rfl

theorem be32_toNat (v : Word) :
    (be32 v).map BitVec.toNat =
      [v.toNat / 2 ^ 24 % 256, v.toNat / 2 ^ 16 % 256, v.toNat / 2 ^ 8 % 256, v.toNat % 256] := by
  simp [be32, BitVec.extractLsb'_toNat, Nat.shiftRight_eq_div_pow]

theorem append4_toNat (b0 b1 b2 b3 : Byte) :
    (b0 ++ b1 ++ b2 ++ b3).toNat =
      b0.toNat * 2 ^ 24 + b1.toNat * 2 ^ 16 + b2.toNat * 2 ^ 8 + b3.toNat := by
  have or_byte (x : Nat) (b : Byte) : x <<< 8 ||| b.toNat = x * 2 ^ 8 + b.toNat := by
    rw [← Nat.shiftLeft_add_eq_or_of_lt b.isLt, Nat.shiftLeft_eq]
  simp only [BitVec.toNat_append, or_byte]
  omega

@[simp] theorem ofBE32_be32 (v : Word) : ofBE32 (be32 v) = v := by
  apply BitVec.eq_of_toNat_eq
  have := v.isLt
  simp only [be32, ofBE32, append4_toNat, BitVec.extractLsb'_toNat, Nat.shiftRight_eq_div_pow]
  omega

theorem be32_ofBE32 {P : List Byte} (h : P.length = 4) : be32 (ofBE32 P) = P := by
  match P, h with
  | [b0, b1, b2, b3], _ =>
    have h0 := b0.isLt; have h1 := b1.isLt; have h2 := b2.isLt; have h3 := b3.isLt
    simp only [be32, ofBE32, List.cons.injEq, and_true]
    refine ⟨?_, ?_, ?_, ?_⟩ <;> apply BitVec.eq_of_toNat_eq <;>
      simp only [append4_toNat, BitVec.extractLsb'_toNat, Nat.shiftRight_eq_div_pow] <;> omega

/-- The payload of a well-formed instruction has the length its format says. -/
theorem Instr.payload_length {c : Config} {i : Instr} (h : i.wf c = true) :
    i.payload.length = i.opcode.format.payload c := by
  cases i <;> simp_all [Instr.payload, Instr.opcode, Opcode.format, Format.payload, Instr.wf]

@[simp] theorem Instr.build_payload (i : Instr) : i.opcode.build i.payload = i := by
  cases i <;> simp [Instr.payload, Instr.opcode, Opcode.build, firstByte]

@[simp] theorem Opcode.opcode_build (o : Opcode) (P : List Byte) : (o.build P).opcode = o := by
  cases o <;> rfl

theorem Opcode.payload_build {c : Config} {o : Opcode} {P : List Byte}
    (h : P.length = o.format.payload c) : (o.build P).payload = P := by
  cases o <;> simp_all [Opcode.build, Instr.payload, Opcode.format, Format.payload, be32_ofBE32]
  match P, h with
  | [b], _ => rfl

theorem Opcode.wf_build {c : Config} {o : Opcode} {P : List Byte}
    (h : P.length = o.format.payload c) : (o.build P).wf c = true := by
  cases o <;> simp_all [Opcode.build, Instr.wf, Opcode.format, Format.payload]

theorem packetLength_byte (c : Config) (o : Opcode) :
    packetLength c o.byte = 1 + o.format.payload c := by
  simp [packetLength]

end Sys2Proof
end

