-- ==== Sys2Proof/Laws/State.lean ====
section
/-! SUPPORT. One lemma per field for each update of the state, so that no proof unfolds a record
update. -/

namespace Sys2Proof.Machine.State

section Raise

/-! Fault entry (R131). -/

variable (op : Byte) (c : Cause) (s : State)

@[simp] theorem raise_cfg : (s.raise op c).cfg = s.cfg := rfl
@[simp] theorem raise_s1 : (s.raise op c).s1 = s.s1 := rfl
@[simp] theorem raise_s2 : (s.raise op c).s2 = s.s2 := rfl
@[simp] theorem raise_cnt : (s.raise op c).cnt = s.cnt := rfl
@[simp] theorem raise_vn : (s.raise op c).vn = s.vn := rfl
@[simp] theorem raise_vs : (s.raise op c).vs = s.vs := rfl
@[simp] theorem raise_va : (s.raise op c).va = s.va := rfl
@[simp] theorem raise_vc : (s.raise op c).vc = s.vc := rfl
@[simp] theorem raise_ck : (s.raise op c).ck = s.ck := rfl
@[simp] theorem raise_sp : (s.raise op c).sp = s.sp := rfl
@[simp] theorem raise_phase : (s.raise op c).phase = .fault := rfl
@[simp] theorem raise_err : (s.raise op c).err = op ++ c.code := rfl
@[simp] theorem raise_cmd : (s.raise op c).cmd = s.cmd := rfl
@[simp] theorem raise_out : (s.raise op c).out = s.out := rfl

end Raise

section Emit

/-! An output event (R35). -/

variable (e : OutEvent) (s : State)

@[simp] theorem emit_cfg : (s.emit e).cfg = s.cfg := rfl
@[simp] theorem emit_s1 : (s.emit e).s1 = s.s1 := rfl
@[simp] theorem emit_s2 : (s.emit e).s2 = s.s2 := rfl
@[simp] theorem emit_cnt : (s.emit e).cnt = s.cnt := rfl
@[simp] theorem emit_vn : (s.emit e).vn = s.vn := rfl
@[simp] theorem emit_vs : (s.emit e).vs = s.vs := rfl
@[simp] theorem emit_va : (s.emit e).va = s.va := rfl
@[simp] theorem emit_vc : (s.emit e).vc = s.vc := rfl
@[simp] theorem emit_ck : (s.emit e).ck = s.ck := rfl
@[simp] theorem emit_sp : (s.emit e).sp = s.sp := rfl
@[simp] theorem emit_phase : (s.emit e).phase = s.phase := rfl
@[simp] theorem emit_err : (s.emit e).err = s.err := rfl
@[simp] theorem emit_cmd : (s.emit e).cmd = s.cmd := rfl
@[simp] theorem emit_out : (s.emit e).out = s.out ++ [e] := rfl

end Emit

section ClearBlock

/-! Clearing the pending block (R83). -/

variable (s : State)

@[simp] theorem clearBlock_cfg : (s.clearBlock).cfg = s.cfg := rfl
@[simp] theorem clearBlock_s1 : (s.clearBlock).s1 = s.s1 := rfl
@[simp] theorem clearBlock_s2 : (s.clearBlock).s2 = s.s2 := rfl
@[simp] theorem clearBlock_cnt : (s.clearBlock).cnt = s.cnt := rfl
@[simp] theorem clearBlock_vn : (s.clearBlock).vn = 0 := rfl
@[simp] theorem clearBlock_vs : (s.clearBlock).vs = 0 := rfl
@[simp] theorem clearBlock_va : (s.clearBlock).va = 0 := rfl
@[simp] theorem clearBlock_vc : (s.clearBlock).vc = List.replicate s.cfg.W 0 := rfl
@[simp] theorem clearBlock_ck : (s.clearBlock).ck = s.ck := rfl
@[simp] theorem clearBlock_sp : (s.clearBlock).sp = s.sp := rfl
@[simp] theorem clearBlock_phase : (s.clearBlock).phase = s.phase := rfl
@[simp] theorem clearBlock_err : (s.clearBlock).err = s.err := rfl
@[simp] theorem clearBlock_cmd : (s.clearBlock).cmd = s.cmd := rfl
@[simp] theorem clearBlock_out : (s.clearBlock).out = s.out := rfl

end ClearBlock

section Start

/-! Starting a computation (R61, R62). -/

variable (a b : Word) (s : State)

@[simp] theorem start_cfg : (s.start a b).cfg = s.cfg := rfl
@[simp] theorem start_s1 : (s.start a b).s1 = a := rfl
@[simp] theorem start_s2 : (s.start a b).s2 = b := rfl
@[simp] theorem start_cnt : (s.start a b).cnt = 0 := rfl
@[simp] theorem start_vn : (s.start a b).vn = 0 := rfl
@[simp] theorem start_vs : (s.start a b).vs = 0 := rfl
@[simp] theorem start_va : (s.start a b).va = 0 := rfl
@[simp] theorem start_vc : (s.start a b).vc = List.replicate s.cfg.W 0 := rfl
@[simp] theorem start_ck : (s.start a b).ck = s.ck := rfl
@[simp] theorem start_sp : (s.start a b).sp = s.sp := rfl
@[simp] theorem start_phase : (s.start a b).phase = .active := rfl
@[simp] theorem start_err : (s.start a b).err = s.err := rfl
@[simp] theorem start_cmd : (s.start a b).cmd = s.cmd := rfl
@[simp] theorem start_out : (s.start a b).out = s.out := rfl

end Start

section Latch

/-! The checksum latch (R63, R96). -/

variable (v : Word) (s : State)

@[simp] theorem latch_cfg : (s.latch v).cfg = s.cfg := rfl
@[simp] theorem latch_s1 : (s.latch v).s1 = s.s1 := rfl
@[simp] theorem latch_s2 : (s.latch v).s2 = s.s2 := rfl
@[simp] theorem latch_cnt : (s.latch v).cnt = s.cnt := rfl
@[simp] theorem latch_vn : (s.latch v).vn = s.vn := rfl
@[simp] theorem latch_vs : (s.latch v).vs = s.vs := rfl
@[simp] theorem latch_va : (s.latch v).va = s.va := rfl
@[simp] theorem latch_vc : (s.latch v).vc = s.vc := rfl
@[simp] theorem latch_ck : (s.latch v).ck = some v := rfl
@[simp] theorem latch_sp : (s.latch v).sp = 0 := rfl
@[simp] theorem latch_phase : (s.latch v).phase = s.phase := rfl
@[simp] theorem latch_err : (s.latch v).err = s.err := rfl
@[simp] theorem latch_cmd : (s.latch v).cmd = s.cmd := rfl
@[simp] theorem latch_out : (s.latch v).out = s.out := rfl

end Latch

section Reduce

/-! REDUCE (R70). -/

variable (s : State)

@[simp] theorem reduce_cfg : (s.reduce).cfg = s.cfg := rfl
@[simp] theorem reduce_s1 : (s.reduce).s1 = s.s1 % BitVec.ofNat 32 MOD := rfl
@[simp] theorem reduce_s2 : (s.reduce).s2 = s.s2 % BitVec.ofNat 32 MOD := rfl
@[simp] theorem reduce_cnt : (s.reduce).cnt = 0 := rfl
@[simp] theorem reduce_vn : (s.reduce).vn = s.vn := rfl
@[simp] theorem reduce_vs : (s.reduce).vs = s.vs := rfl
@[simp] theorem reduce_va : (s.reduce).va = s.va := rfl
@[simp] theorem reduce_vc : (s.reduce).vc = s.vc := rfl
@[simp] theorem reduce_ck : (s.reduce).ck = s.ck := rfl
@[simp] theorem reduce_sp : (s.reduce).sp = s.sp := rfl
@[simp] theorem reduce_phase : (s.reduce).phase = s.phase := rfl
@[simp] theorem reduce_err : (s.reduce).err = s.err := rfl
@[simp] theorem reduce_cmd : (s.reduce).cmd = s.cmd := rfl
@[simp] theorem reduce_out : (s.reduce).out = s.out := rfl

end Reduce

section AddByte

/-! The two additions of ACC1 (R71). -/

variable (b : Byte) (s : State)

@[simp] theorem addByte_cfg : (s.addByte b).cfg = s.cfg := rfl
@[simp] theorem addByte_s1 : (s.addByte b).s1 = s.s1 + zext32 b := rfl
@[simp] theorem addByte_s2 : (s.addByte b).s2 = s.s2 + (s.s1 + zext32 b) := rfl
@[simp] theorem addByte_cnt : (s.addByte b).cnt = s.cnt := rfl
@[simp] theorem addByte_vn : (s.addByte b).vn = s.vn := rfl
@[simp] theorem addByte_vs : (s.addByte b).vs = s.vs := rfl
@[simp] theorem addByte_va : (s.addByte b).va = s.va := rfl
@[simp] theorem addByte_vc : (s.addByte b).vc = s.vc := rfl
@[simp] theorem addByte_ck : (s.addByte b).ck = s.ck := rfl
@[simp] theorem addByte_sp : (s.addByte b).sp = s.sp := rfl
@[simp] theorem addByte_phase : (s.addByte b).phase = s.phase := rfl
@[simp] theorem addByte_err : (s.addByte b).err = s.err := rfl
@[simp] theorem addByte_cmd : (s.addByte b).cmd = s.cmd := rfl
@[simp] theorem addByte_out : (s.addByte b).out = s.out := rfl

end AddByte

section Vacc

/-! VACC (R82). -/

variable (lane : List Byte) (s : State)

@[simp] theorem vacc_cfg : (s.vacc lane).cfg = s.cfg := rfl
@[simp] theorem vacc_s1 : (s.vacc lane).s1 = s.s1 := rfl
@[simp] theorem vacc_s2 : (s.vacc lane).s2 = s.s2 := rfl
@[simp] theorem vacc_cnt : (s.vacc lane).cnt = s.cnt := rfl
@[simp] theorem vacc_vn : (s.vacc lane).vn = s.vn + 1 := rfl
@[simp] theorem vacc_vs : (s.vacc lane).vs = s.vs + lsum lane := rfl
@[simp] theorem vacc_va : (s.vacc lane).va = s.va + s.vs := rfl
@[simp] theorem vacc_vc : (s.vacc lane).vc = List.zipWith (fun c b => c + zext32 b) s.vc lane := rfl
@[simp] theorem vacc_ck : (s.vacc lane).ck = s.ck := rfl
@[simp] theorem vacc_sp : (s.vacc lane).sp = s.sp := rfl
@[simp] theorem vacc_phase : (s.vacc lane).phase = s.phase := rfl
@[simp] theorem vacc_err : (s.vacc lane).err = s.err := rfl
@[simp] theorem vacc_cmd : (s.vacc lane).cmd = s.cmd := rfl
@[simp] theorem vacc_out : (s.vacc lane).out = s.out := rfl

end Vacc

section Vfold

/-! VFOLD (R83). -/

variable (s : State)

@[simp] theorem vfold_cfg : (s.vfold).cfg = s.cfg := rfl
@[simp] theorem vfold_s1 : (s.vfold).s1 = (s.s1 + s.vs) % BitVec.ofNat 32 MOD := rfl
@[simp] theorem vfold_s2 : (s.vfold).s2 = s.foldedS2 % BitVec.ofNat 32 MOD := rfl
@[simp] theorem vfold_cnt : (s.vfold).cnt = 0 := rfl
@[simp] theorem vfold_vn : (s.vfold).vn = 0 := rfl
@[simp] theorem vfold_vs : (s.vfold).vs = 0 := rfl
@[simp] theorem vfold_va : (s.vfold).va = 0 := rfl
@[simp] theorem vfold_vc : (s.vfold).vc = List.replicate s.cfg.W 0 := rfl
@[simp] theorem vfold_ck : (s.vfold).ck = s.ck := rfl
@[simp] theorem vfold_sp : (s.vfold).sp = s.sp := rfl
@[simp] theorem vfold_phase : (s.vfold).phase = s.phase := rfl
@[simp] theorem vfold_err : (s.vfold).err = s.err := rfl
@[simp] theorem vfold_cmd : (s.vfold).cmd = s.cmd := rfl
@[simp] theorem vfold_out : (s.vfold).out = s.out := rfl

end Vfold

section Advance

/-! Taking a packet from CMD (R31). -/

variable (rest : List Byte) (s : State)

@[simp] theorem advance_cfg : (s.advance rest).cfg = s.cfg := rfl
@[simp] theorem advance_s1 : (s.advance rest).s1 = s.s1 := rfl
@[simp] theorem advance_s2 : (s.advance rest).s2 = s.s2 := rfl
@[simp] theorem advance_cnt : (s.advance rest).cnt = s.cnt := rfl
@[simp] theorem advance_vn : (s.advance rest).vn = s.vn := rfl
@[simp] theorem advance_vs : (s.advance rest).vs = s.vs := rfl
@[simp] theorem advance_va : (s.advance rest).va = s.va := rfl
@[simp] theorem advance_vc : (s.advance rest).vc = s.vc := rfl
@[simp] theorem advance_ck : (s.advance rest).ck = s.ck := rfl
@[simp] theorem advance_sp : (s.advance rest).sp = s.sp := rfl
@[simp] theorem advance_phase : (s.advance rest).phase = s.phase := rfl
@[simp] theorem advance_err : (s.advance rest).err = s.err := rfl
@[simp] theorem advance_cmd : (s.advance rest).cmd = rest := rfl
@[simp] theorem advance_out : (s.advance rest).out = s.out := rfl

end Advance

section Present

/-! Presenting bytes on CMD (R154). -/

variable (bytes : List Byte) (s : State)

@[simp] theorem present_cfg : (s.present bytes).cfg = s.cfg := rfl
@[simp] theorem present_s1 : (s.present bytes).s1 = s.s1 := rfl
@[simp] theorem present_s2 : (s.present bytes).s2 = s.s2 := rfl
@[simp] theorem present_cnt : (s.present bytes).cnt = s.cnt := rfl
@[simp] theorem present_vn : (s.present bytes).vn = s.vn := rfl
@[simp] theorem present_vs : (s.present bytes).vs = s.vs := rfl
@[simp] theorem present_va : (s.present bytes).va = s.va := rfl
@[simp] theorem present_vc : (s.present bytes).vc = s.vc := rfl
@[simp] theorem present_ck : (s.present bytes).ck = s.ck := rfl
@[simp] theorem present_sp : (s.present bytes).sp = s.sp := rfl
@[simp] theorem present_phase : (s.present bytes).phase = s.phase := rfl
@[simp] theorem present_err : (s.present bytes).err = s.err := rfl
@[simp] theorem present_cmd : (s.present bytes).cmd = s.cmd ++ bytes := rfl
@[simp] theorem present_out : (s.present bytes).out = s.out := rfl

end Present

end Sys2Proof.Machine.State
end

