-- ==== Sys2Proof/Laws/Ops.lean ====
section
/-! SUPPORT. For each shared operation, once, everything it can do: the phase checks, ACC1, and the
three conditional micro-operations. -/

namespace Sys2Proof.Machine

/-- R47: a byte enters an addition with its own value. -/
@[simp] theorem zext32_toNat (b : Byte) : (zext32 b).toNat = b.toNat := by
  simp only [zext32, BitVec.toNat_setWidth]
  have := b.isLt
  omega

namespace State

variable {s : State} {k : Result}

theorem whenLive_of_live (h : s.phase ≠ .fault) : s.whenLive k = k := by
  unfold whenLive
  split <;> simp_all

theorem whenLive_of_fault (h : s.phase = .fault) : s.whenLive k = .fault .phaseFault := by
  simp [whenLive, h]

theorem whenLive_next {t : State} (h : s.whenLive k = .next t) :
    s.phase ≠ .fault ∧ k = .next t := by
  unfold whenLive at h
  split at h <;> simp_all

theorem whenActive_of_active {op : Opcode} (h : s.phase = .active) : s.whenActive op k = k := by
  simp [whenActive, h]

theorem whenActive_of_done {op : Opcode} (h : s.phase = .done) :
    s.whenActive op k = .next (s.raise op.byte .phase) := by
  simp [whenActive, h]

theorem whenActive_of_fault {op : Opcode} (h : s.phase = .fault) :
    s.whenActive op k = .fault .phaseFault := by
  simp [whenActive, h]

theorem whenActive_next {op : Opcode} {t : State} (h : s.whenActive op k = .next t) :
    (s.phase = .active ∧ k = .next t) ∨ (s.phase = .done ∧ t = s.raise op.byte .phase) := by
  unfold whenActive at h
  split at h <;> simp_all

theorem acc1_within (b : Byte) (h : s.cnt.toNat ≠ 15) :
    s.acc1 b = { s.addByte b with cnt := s.cnt + 1 } := by
  simp [acc1, STRIDE, h]

theorem acc1_last (b : Byte) (h : s.cnt.toNat = 15) : s.acc1 b = (s.addByte b).reduce := by
  simp [acc1, STRIDE, h]

/-- R71: ACC1 writes S1, S2 and CNT alone. -/
theorem acc1_frame (b : Byte) (s : State) :
    s.acc1 b =
      { s with s1 := (s.acc1 b).s1, s2 := (s.acc1 b).s2, cnt := (s.acc1 b).cnt } := by
  unfold acc1
  split <;> rfl

section Acc1

variable (b : Byte) (s : State)

@[simp] theorem acc1_cfg : (s.acc1 b).cfg = s.cfg := by rw [acc1_frame]
@[simp] theorem acc1_vn : (s.acc1 b).vn = s.vn := by rw [acc1_frame]
@[simp] theorem acc1_vs : (s.acc1 b).vs = s.vs := by rw [acc1_frame]
@[simp] theorem acc1_va : (s.acc1 b).va = s.va := by rw [acc1_frame]
@[simp] theorem acc1_vc : (s.acc1 b).vc = s.vc := by rw [acc1_frame]
@[simp] theorem acc1_ck : (s.acc1 b).ck = s.ck := by rw [acc1_frame]
@[simp] theorem acc1_sp : (s.acc1 b).sp = s.sp := by rw [acc1_frame]
@[simp] theorem acc1_phase : (s.acc1 b).phase = s.phase := by rw [acc1_frame]
@[simp] theorem acc1_err : (s.acc1 b).err = s.err := by rw [acc1_frame]
@[simp] theorem acc1_cmd : (s.acc1 b).cmd = s.cmd := by rw [acc1_frame]
@[simp] theorem acc1_out : (s.acc1 b).out = s.out := by rw [acc1_frame]

/-- R14, R71: CNT counts the bytes of the stride modulo 16. -/
theorem acc1_cnt : (s.acc1 b).cnt = s.cnt + 1 := by
  by_cases h : s.cnt.toNat = 15
  · rw [acc1_last b h]
    apply BitVec.eq_of_toNat_eq
    simp [h]
  · rw [acc1_within b h]

end Acc1

theorem foldPending_of_none (h : s.vn = 0) : s.foldPending = s := by
  simp [foldPending, h]

theorem foldPending_of_block (h : s.vn ≠ 0) : s.foldPending = s.vfold := by
  have : 0 < s.vn.toNat := by
    rcases Nat.eq_zero_or_pos s.vn.toNat with h0 | h0
    · exact absurd (BitVec.eq_of_toNat_eq (by simpa using h0)) h
    · exact h0
  simp [foldPending, this]

theorem reducePending_of_none (h : s.cnt = 0) : s.reducePending = s := by
  simp [reducePending, h]

theorem reducePending_of_stride (h : s.cnt ≠ 0) : s.reducePending = s.reduce := if_neg h

theorem foldFull_of_room (h : s.vn.toNat ≠ s.cfg.lanesMax) : s.foldFull = s := by
  simp [foldFull, h]

theorem foldFull_of_full (h : s.vn.toNat = s.cfg.lanesMax) : s.foldFull = s.vfold := by
  simp [foldFull, h]

end State

end Sys2Proof.Machine
end

