-- ==== Sys2Proof/Laws/Sums.lean ====
section
/-! SUPPORT. The 32-bit sums of the vectorised path as natural numbers: each is the exact sum modulo
2^32, so it is the exact sum wherever that is below 2^32 (R123). -/

namespace Sys2Proof.Machine

@[simp] theorem byteSum_nil : byteSum [] = 0 := rfl

@[simp] theorem byteSum_cons (b : Byte) (bs : List Byte) :
    byteSum (b :: bs) = b.toNat + byteSum bs := by
  simp [byteSum]

@[simp] theorem byteSum_append (xs ys : List Byte) :
    byteSum (xs ++ ys) = byteSum xs + byteSum ys := by
  simp [byteSum]

theorem byteSum_le (bs : List Byte) : byteSum bs ≤ 255 * bs.length := by
  induction bs with
  | nil => simp
  | cons b bs ih =>
    have := b.isLt
    simp only [byteSum_cons, List.length_cons]
    omega

/-- R81: LSUM is the exact sum of the lane, modulo 2^32. -/
theorem lsum_eq_ofNat (lane : List Byte) : lsum lane = BitVec.ofNat 32 (byteSum lane) := by
  induction lane with
  | nil => rfl
  | cons b bs ih => simp [lsum, ih, BitVec.ofNat_add, zext32]

/-- The weighted column sum over the natural numbers, by recursion on the columns. -/
def weightedNat : Nat → List Nat → Nat
  | _, [] => 0
  | w, c :: cs => w * c + weightedNat (w - 1) cs

theorem weightedSum_eq_ofNat (w : Nat) (vc : List Word) :
    weightedSum w vc = BitVec.ofNat 32 (weightedNat w (vc.map BitVec.toNat)) := by
  induction vc generalizing w with
  | nil => rfl
  | cons c cs ih =>
    simp only [weightedSum, List.map_cons, weightedNat, BitVec.ofNat_add, BitVec.ofNat_mul, ih]
    simp

theorem weightedNat_eq_sum (w : Nat) (vc : List Nat) :
    weightedNat w vc = ((List.range vc.length).map fun j => (w - j) * vc.getD j 0).sum := by
  induction vc generalizing w with
  | nil => rfl
  | cons c cs ih =>
    simp only [weightedNat, ih, List.length_cons, List.range_succ_eq_map, List.map_cons,
      List.sum_cons, List.map_map]
    simp only [Nat.sub_zero, List.getD_cons_zero, Nat.add_left_cancel_iff]
    congr 1
    apply List.map_congr_left
    intro j _
    simp [Nat.sub_sub, Nat.add_comm]

theorem exactFold_eq (W n s1 s2 va : Nat) {vc : List Nat} (h : vc.length = W) :
    exactFold W n s1 s2 va vc = s2 + n * W * s1 + W * va + weightedNat W vc := by
  rw [weightedNat_eq_sum, h, exactFold]

/-- R83: S2 before its reduction is the exact fold, modulo 2^32. -/
theorem State.foldedS2_eq_ofNat {s : State} (h : s.vc.length = s.cfg.W) :
    s.foldedS2 =
      BitVec.ofNat 32
        (exactFold s.cfg.W s.vn.toNat s.s1.toNat s.s2.toNat s.va.toNat (s.vc.map BitVec.toNat)) := by
  rw [exactFold_eq _ _ _ _ _ (by simpa using h)]
  simp only [State.foldedS2, weightedSum_eq_ofNat, BitVec.ofNat_add, BitVec.ofNat_mul]
  simp

/-- The weighted sum of columns that are at most `m` each. -/
theorem weightedNat_le (w m : Nat) (vc : List Nat) (hlen : vc.length ≤ w)
    (hc : ∀ c ∈ vc, c ≤ m) : weightedNat w vc ≤ m * (w * (w + 1) / 2) := by
  induction vc generalizing w with
  | nil => simp [weightedNat]
  | cons c cs ih =>
    obtain ⟨w, rfl⟩ : ∃ v, w = v + 1 := ⟨w - 1, by simp at hlen; omega⟩
    have hc0 : c ≤ m := hc c (by simp)
    have ih := ih w (by simpa using hlen) (fun c h => hc c (by simp [h]))
    have htri : (w + 1) * (w + 1 + 1) / 2 = w * (w + 1) / 2 + (w + 1) := by
      have : (w + 1) * (w + 1 + 1) = w * (w + 1) + 2 * (w + 1) := by ring
      omega
    have hfirst : (w + 1) * c ≤ m * (w + 1) := by
      rw [Nat.mul_comm]
      exact Nat.mul_le_mul_right _ hc0
    simp only [weightedNat, Nat.add_sub_cancel, htri]
    rw [Nat.mul_add m, Nat.add_comm]
    exact Nat.add_le_add ih hfirst

end Sys2Proof.Machine
end

