-- ==== Sys2Proof/Laws/Block.lean ====
section
/-! SUPPORT. A pending block of at most LANES_MAX lanes over reduced sums (`Block`): no sum that VACC or
VFOLD forms reaches 2^32 (R88), so both compute the exact sums, and VACC keeps the block. -/

namespace Sys2Proof.Machine

/-- R87: LANES_MAX lies between 173 (W = 32) and 347 (W = 16). -/
theorem lanesMax_range (c : Config) : 173 ≤ c.lanesMax ∧ c.lanesMax ≤ 347 := by
  have := c.W_range
  unfold Config.lanesMax NMAX
  constructor
  · rw [Nat.le_div_iff_mul_le (by omega)]; omega
  · apply Nat.div_le_of_le_mul; omega

theorem lanesMax_pos (c : Config) : 0 < c.lanesMax := by
  have := lanesMax_range c
  omega

/-- R87: a block holds at most NMAX bytes. -/
theorem lanes_bytes (c : Config) {n : Nat} (hn : n ≤ c.lanesMax) : c.W * n ≤ 5552 :=
  calc c.W * n ≤ c.W * c.lanesMax := Nat.mul_le_mul_left _ hn
    _ ≤ 5552 := Nat.mul_div_le 5552 c.W

theorem triangle_mono {n m : Nat} (h : n ≤ m) : n * (n - 1) / 2 ≤ m * (m - 1) / 2 :=
  Nat.div_le_div_right (Nat.mul_le_mul h (by omega))

theorem triangle_succ (n : Nat) : (n + 1) * (n + 1 - 1) / 2 = n * (n - 1) / 2 + n := by
  cases n with
  | zero => rfl
  | succ n =>
    have : (n + 1 + 1) * (n + 1 + 1 - 1) = (n + 1) * (n + 1 - 1) + 2 * (n + 1) := by
      simp only [Nat.add_sub_cancel]; ring
    omega

/-- R88: the bound of the fold, for every lane width. -/
theorem exactFold_le (c : Config) {n s1 s2 va : Nat} {vc : List Nat} (hn : n ≤ c.lanesMax)
    (h1 : s1 < MOD) (h2 : s2 < MOD) (hva : va ≤ 255 * c.W * (n * (n - 1) / 2))
    (hlen : vc.length = c.W) (hvc : ∀ x ∈ vc, x ≤ 255 * n) :
    exactFold c.W n s1 s2 va vc ≤ 4294690200 := by
  rw [exactFold_eq _ _ _ _ _ hlen]
  have hw := weightedNat_le c.W (255 * n) vc (by omega) hvc
  have hT := triangle_mono hn
  unfold MOD at h1 h2
  have hs1 : n * c.W * s1 ≤ n * c.W * 65520 := Nat.mul_le_mul_left _ (by omega)
  have hva' : c.W * va ≤ c.W * (255 * c.W * (n * (n - 1) / 2)) := Nat.mul_le_mul_left _ hva
  unfold Config.lanesMax NMAX at hn hT
  generalize n * (n - 1) / 2 = T at *
  generalize weightedNat c.W vc = X at *
  have hW := c.W_range
  generalize c.W = W at *
  obtain ⟨l, u⟩ := hW
  interval_cases W <;> norm_num at hn hT hw hs1 hva' ⊢ <;> omega

/-- R81: LSUM of a lane is exact. -/
theorem lsum_toNat {lane : List Byte} (h : lane.length ≤ 32) : (lsum lane).toNat = byteSum lane := by
  have := byteSum_le lane
  rw [lsum_eq_ofNat, BitVec.toNat_ofNat]; omega

theorem words_sum_le (l : List Word) (m : Nat) (h : ∀ c ∈ l, c.toNat ≤ m) :
    (l.map BitVec.toNat).sum ≤ m * l.length := by
  induction l with
  | nil => simp
  | cons x xs ih =>
    have := h x (by simp)
    have := ih (fun c hc => h c (by simp [hc]))
    simp only [List.map_cons, List.sum_cons, List.length_cons, Nat.mul_add]; omega

/-- The columns after one more lane, as natural numbers. -/
theorem columns_add {vc : List Word} {lane : List Byte} (hl : vc.length = lane.length) {m : Nat}
    (hm : m + 255 < 2 ^ 32) (hb : ∀ c ∈ vc, c.toNat ≤ m) :
    (List.zipWith (fun c b => c + zext32 b) vc lane).map BitVec.toNat =
      List.zipWith (fun c b => c.toNat + b.toNat) vc lane := by
  induction vc generalizing lane with
  | nil => simp
  | cons c cs ih =>
    match lane, hl with
    | b :: bs, hl =>
      have h1 := hb c (by simp)
      have hb' := b.isLt
      simp only [List.zipWith_cons_cons, List.map_cons]
      rw [ih (by simpa using hl) (fun c hc => hb c (by simp [hc]))]
      congr 1
      rw [BitVec.toNat_add, zext32_toNat]; omega

theorem columns_add_sum {vc : List Word} {lane : List Byte} (hl : vc.length = lane.length) :
    (List.zipWith (fun c b => c.toNat + b.toNat) vc lane).sum =
      (vc.map BitVec.toNat).sum + byteSum lane := by
  induction vc generalizing lane with
  | nil => match lane, hl with | [], _ => simp
  | cons c cs ih =>
    match lane, hl with
    | b :: bs, hl => simp [ih (by simpa using hl : cs.length = bs.length)]; omega

/-- A block of at most LANES_MAX lanes over reduced sums. -/
structure Block (s : State) : Prop where
  columns : s.vc.length = s.cfg.W
  s1 : s.s1.toNat < MOD
  s2 : s.s2.toNat < MOD
  lanes : s.vn.toNat ≤ s.cfg.lanesMax
  blockSum : s.vs.toNat = (s.vc.map BitVec.toNat).sum
  columnBound : ∀ c ∈ s.vc, c.toNat ≤ 255 * s.vn.toNat
  vaBound : s.va.toNat ≤ 255 * s.cfg.W * (s.vn.toNat * (s.vn.toNat - 1) / 2)

theorem State.SumInv.block {s : State} (h : s.SumInv) (hc : s.cnt = 0) : Block s :=
  ⟨h.columns, (h.reduced hc).1, (h.reduced hc).2, h.lanes.le, h.blockSum, h.columnBound, h.vaBound⟩

namespace Block

variable {s : State} {lane : List Byte}

theorem of_clearBlock (s : State) (h1 : s.s1.toNat < MOD) (h2 : s.s2.toNat < MOD) :
    Block s.clearBlock where
  columns := by simp
  s1 := h1
  s2 := h2
  lanes := by simp
  blockSum := by simp
  columnBound := by simp
  vaBound := by simp

theorem vs_le (h : Block s) : s.vs.toNat ≤ 255 * (s.cfg.W * s.vn.toNat) := by
  rw [h.blockSum]
  calc _ ≤ _ := words_sum_le s.vc _ h.columnBound
    _ = _ := by rw [h.columns]; ring

/-- R88: the bound of VS. -/
theorem vs_bound (h : Block s) : s.vs.toNat ≤ 1415760 := by
  have := h.vs_le
  have := lanes_bytes s.cfg h.lanes
  omega

/-- R88: the bound of a column. -/
theorem columns_le (h : Block s) : ∀ c ∈ s.vc, c.toNat ≤ 88485 := by
  intro c hc
  have := h.columnBound c hc
  have := h.lanes
  have := (lanesMax_range s.cfg).2
  omega

/-- R88: the bound of S1 while the block is folded. -/
theorem s1_sum_le (h : Block s) : s.s1.toNat + s.vs.toNat ≤ 1481280 := by
  have := h.vs_bound
  have := h.s1
  unfold MOD at this
  omega

theorem s1_sum (h : Block s) : (s.s1 + s.vs).toNat = s.s1.toNat + s.vs.toNat := by
  have := h.s1_sum_le
  rw [BitVec.toNat_add]; omega

/-- R88: the bound of S2 while the block is folded. -/
theorem fold_le (h : Block s) :
    exactFold s.cfg.W s.vn.toNat s.s1.toNat s.s2.toNat s.va.toNat (s.vc.map BitVec.toNat)
      ≤ 4294690200 := by
  apply exactFold_le _ h.lanes h.s1 h.s2 h.vaBound
  · simp [h.columns]
  · simp only [List.mem_map, forall_exists_index, and_imp]
    rintro _ c hc rfl
    exact h.columnBound c hc

theorem foldedS2_toNat (h : Block s) :
    s.foldedS2.toNat =
      exactFold s.cfg.W s.vn.toNat s.s1.toNat s.s2.toNat s.va.toNat (s.vc.map BitVec.toNat) := by
  have := h.fold_le
  rw [State.foldedS2_eq_ofNat h.columns, BitVec.toNat_ofNat]
  omega

/-- R83: S1 after a fold, exactly. -/
theorem vfold_s1 (h : Block s) : s.vfold.s1.toNat = (s.s1.toNat + s.vs.toNat) % MOD := by
  simp only [State.vfold_s1, BitVec.toNat_umod, h.s1_sum]; rfl

/-- R83: S2 after a fold, exactly. -/
theorem vfold_s2 (h : Block s) :
    s.vfold.s2.toNat =
      exactFold s.cfg.W s.vn.toNat s.s1.toNat s.s2.toNat s.va.toNat (s.vc.map BitVec.toNat) % MOD := by
  simp only [State.vfold_s2, BitVec.toNat_umod, h.foldedS2_toNat]; rfl

theorem va_le (h : Block s) :
    s.va.toNat + s.vs.toNat ≤ 255 * s.cfg.W * ((s.vn.toNat + 1) * s.vn.toNat / 2) := by
  have h1 := h.vaBound
  have h2 := h.vs_le
  have h3 := triangle_succ s.vn.toNat
  rw [Nat.add_sub_cancel] at h3
  rw [h3, Nat.mul_add]
  have : 255 * s.cfg.W * s.vn.toNat = 255 * (s.cfg.W * s.vn.toNat) := by ring
  omega

/-- R88: the bound of VA. -/
theorem va_bound (h : Block s) (hv : s.vn.toNat + 1 ≤ s.cfg.lanesMax) :
    s.va.toNat + s.vs.toNat ≤ 244926480 := by
  have h1 := h.va_le
  have hT := triangle_mono hv
  rw [Nat.add_sub_cancel] at hT
  generalize (s.vn.toNat + 1) * s.vn.toNat / 2 = T at *
  generalize s.va.toNat + s.vs.toNat = X at *
  have hW := s.cfg.W_range
  unfold Config.lanesMax NMAX at hT
  generalize s.cfg.W = W at *
  obtain ⟨l, u⟩ := hW
  interval_cases W <;> norm_num at hT h1 ⊢ <;> omega

/-- R82: VACC in exact sums, one lemma per register. -/
theorem vacc_vs (h : Block s) (hl : lane.length = s.cfg.W) :
    (s.vacc lane).vs.toNat = s.vs.toNat + byteSum lane := by
  have hW := s.cfg.W_range
  have := h.vs_bound
  have := byteSum_le lane
  rw [State.vacc_vs, BitVec.toNat_add, lsum_toNat (by omega)]; omega

theorem vacc_va (h : Block s) (hv : s.vn.toNat < s.cfg.lanesMax) :
    (s.vacc lane).va.toNat = s.va.toNat + s.vs.toNat := by
  have := h.va_bound hv
  rw [State.vacc_va, BitVec.toNat_add]; omega

theorem vacc_vc (h : Block s) (hl : lane.length = s.cfg.W) :
    (s.vacc lane).vc.map BitVec.toNat =
      List.zipWith (fun c b => c.toNat + b.toNat) s.vc lane :=
  columns_add (by rw [h.columns, hl]) (by norm_num) h.columns_le

theorem vacc_vn (hv : s.vn.toNat < s.cfg.lanesMax) :
    (s.vacc lane).vn.toNat = s.vn.toNat + 1 := by
  have := (lanesMax_range s.cfg).2
  rw [State.vacc_vn, BitVec.toNat_add]; simp; omega

/-- R88: a lane more is a block again, while there is room. -/
theorem vacc (h : Block s) (hl : lane.length = s.cfg.W) (hv : s.vn.toNat < s.cfg.lanesMax) :
    Block (s.vacc lane) where
  columns := by simp [h.columns, hl]
  s1 := h.s1
  s2 := h.s2
  lanes := by rw [vacc_vn hv]; exact hv
  blockSum := by
    rw [h.vacc_vs hl, h.vacc_vc hl, columns_add_sum (by rw [h.columns, hl]), h.blockSum]
  columnBound := by
    intro c hc
    rw [vacc_vn hv]
    have : c.toNat ∈ (s.vacc lane).vc.map BitVec.toNat := List.mem_map_of_mem hc
    rw [h.vacc_vc hl, List.mem_iff_getElem] at this
    obtain ⟨i, hi, e⟩ := this
    rw [← e, List.getElem_zipWith]
    have h1 := h.columnBound (s.vc[i]'(by simp at hi; omega)) (List.getElem_mem _)
    have h2 := (lane[i]'(by simp at hi; omega)).isLt
    omega
  vaBound := by
    rw [h.vacc_va hv, vacc_vn hv]
    simpa using h.va_le

end Block

end Sys2Proof.Machine
end

