-- ==== Sys2Proof/Laws/Frames.lean ====
section
/-! SUPPORT. The registers each conditional micro-operation and each absorption path writes, and that
none of them looks at the bytes left on CMD. -/

namespace Sys2Proof.Machine.State

theorem foldPending_frame (s : State) :
    s.foldPending =
      { s with
        s1 := s.foldPending.s1, s2 := s.foldPending.s2, cnt := s.foldPending.cnt,
        vn := s.foldPending.vn, vs := s.foldPending.vs, va := s.foldPending.va,
        vc := s.foldPending.vc } := by
  unfold foldPending; split <;> rfl

theorem reducePending_frame (s : State) :
    s.reducePending =
      { s with
        s1 := s.reducePending.s1, s2 := s.reducePending.s2, cnt := s.reducePending.cnt } := by
  unfold reducePending; split <;> rfl

theorem foldFull_frame (s : State) :
    s.foldFull =
      { s with
        s1 := s.foldFull.s1, s2 := s.foldFull.s2, cnt := s.foldFull.cnt, vn := s.foldFull.vn,
        vs := s.foldFull.vs, va := s.foldFull.va, vc := s.foldFull.vc } := by
  unfold foldFull; split <;> rfl

theorem absorbLane_frame (lane : List Byte) (s : State) :
    s.absorbLane lane =
      { s with
        s1 := (s.absorbLane lane).s1, s2 := (s.absorbLane lane).s2,
        cnt := (s.absorbLane lane).cnt, vn := (s.absorbLane lane).vn,
        vs := (s.absorbLane lane).vs, va := (s.absorbLane lane).va,
        vc := (s.absorbLane lane).vc } := by
  unfold absorbLane
  refine (foldFull_frame _).trans ?_
  simp only [vacc_cfg, vacc_ck, vacc_sp, vacc_phase, vacc_err, vacc_cmd, vacc_out]
  rw [reducePending_frame s]

theorem absorbBytes_frame (l : List Byte) (s : State) :
    s.absorbBytes l =
      { s with
        s1 := (s.absorbBytes l).s1, s2 := (s.absorbBytes l).s2,
        cnt := (s.absorbBytes l).cnt } := by
  unfold absorbBytes
  induction l generalizing s with
  | nil => rfl
  | cons b bs ih =>
    simp only [List.foldl_cons]
    refine (ih (s.acc1 b)).trans ?_
    simp

/-- R85: CNT after the fall-back. -/
theorem absorbBytes_cnt (l : List Byte) (s : State) :
    (s.absorbBytes l).cnt.toNat = (s.cnt.toNat + l.length) % 16 := by
  unfold absorbBytes
  induction l generalizing s with
  | nil => have := s.cnt.isLt; simp; omega
  | cons b bs ih =>
    simp only [List.foldl_cons, ih, acc1_cnt, BitVec.toNat_add, List.length_cons]
    simp; omega

section Advance

variable (s : State) (r : List Byte)

theorem acc1_advance (b : Byte) : (s.advance r).acc1 b = (s.acc1 b).advance r := by
  by_cases h : s.cnt.toNat = 15
  · rw [acc1_last b h, acc1_last b (by exact h)]; rfl
  · rw [acc1_within b h, acc1_within b (by exact h)]; rfl

theorem absorbBytes_advance (l : List Byte) :
    (s.advance r).absorbBytes l = (s.absorbBytes l).advance r := by
  unfold absorbBytes
  induction l generalizing s with
  | nil => rfl
  | cons b bs ih => simp only [List.foldl_cons, acc1_advance, ih]

theorem foldPending_advance : (s.advance r).foldPending = s.foldPending.advance r := by
  by_cases h : s.vn = 0
  · rw [foldPending_of_none h, foldPending_of_none (by exact h)]
  · rw [foldPending_of_block h, foldPending_of_block (by exact h)]; rfl

theorem reducePending_advance : (s.advance r).reducePending = s.reducePending.advance r := by
  by_cases h : s.cnt = 0
  · rw [reducePending_of_none h, reducePending_of_none (by exact h)]
  · rw [reducePending_of_stride h, reducePending_of_stride (by exact h)]; rfl

theorem foldFull_advance : (s.advance r).foldFull = s.foldFull.advance r := by
  by_cases h : s.vn.toNat = s.cfg.lanesMax
  · rw [foldFull_of_full h, foldFull_of_full (by exact h)]; rfl
  · rw [foldFull_of_room h, foldFull_of_room (by exact h)]

theorem absorbLane_advance (lane : List Byte) :
    (s.advance r).absorbLane lane = (s.absorbLane lane).advance r := by
  unfold absorbLane
  rw [reducePending_advance]
  exact foldFull_advance (s.reducePending.vacc lane) r

end Advance

end Sys2Proof.Machine.State
end

