-- ==== Sys2Proof/Laws/Exec.lean ====
section
/-! SUPPORT. Once for all commands, everything exec can do (`exec_next_cases`), what a command does
when it takes no fault (`Completes`), and what it leaves then (`Leaves`). -/

namespace Sys2Proof.Machine

/-- What a command does when it takes no fault: the conditions under which it does so, and the state it
leads to. -/
def Completes (i : Instr) (s t : State) : Prop :=
  match i with
  | .nop => t = s
  | .init => t = s.start 1 0
  | .seed v =>
    seedLegal v = true ∧ t = s.start ((lo16 v).setWidth 32) ((hi16 v).setWidth 32)
  | .setck v => t = s.latch v
  | .abs b => s.phase = .active ∧ t = s.foldPending.acc1 b
  | .vabs lane =>
    s.phase = .active ∧ lane.length = s.cfg.W ∧
      t = if s.cfg.hasVector then s.absorbLane lane else s.absorbBytes lane
  | .fin =>
    s.phase = .active ∧
      t = { s.settle.latch (finalize s.settle.s1 s.settle.s2) with phase := .done }
  | .ser =>
    ∃ v b, s.ck = some v ∧ (be32 v)[s.sp.val]? = some b ∧
      t = { s.emit (.tx b) with sp := s.sp + 1 }
  | .rdCk => ∃ v, s.ck = some v ∧ t = s.emit (.rsp v)
  | .rdS1 => t = s.emit (.rsp s.s1)
  | .rdS2 => t = s.emit (.rsp s.s2)
  | .rdStatus => t = s.emit (.rsp s.status)
  | .rdCap => t = s.emit (.rsp s.cfg.cap)

/-- R132: the fault a command raises in this state, if it raises one. -/
def Raises (i : Instr) (s : State) (c : Cause) : Prop :=
  match i with
  | .seed v => c = .seed ∧ seedLegal v = false
  | .abs _ => c = .phase ∧ s.phase = .done
  | .vabs lane => c = .phase ∧ s.phase = .done ∧ lane.length = s.cfg.W
  | .fin => c = .phase ∧ s.phase = .done
  | .ser =>
    (c = .nock ∧ s.ck = none) ∨ (c = .serovr ∧ ∃ v, s.ck = some v ∧ (be32 v)[s.sp.val]? = none)
  | .rdCk => c = .nock ∧ s.ck = none
  | .nop => False
  | .init => False
  | .setck _ => False
  | .rdS1 => False
  | .rdS2 => False
  | .rdStatus => False
  | .rdCap => False

/-- R130: when a command answers a next state, the phase was not FAULT, and the command either raised
one of its faults and did nothing else, or completed. -/
theorem exec_next_cases {i : Instr} {s t : State} (h : exec i s = .next t) :
    s.phase ≠ .fault ∧
      ((∃ c, Raises i s c ∧ t = s.raise i.opcode.byte c) ∨ Completes i s t) := by
  cases i with
  | nop =>
    obtain ⟨hl, hk⟩ := State.whenLive_next h
    simp_all [Completes]
  | init =>
    obtain ⟨hl, hk⟩ := State.whenLive_next h
    simp_all [Completes]
  | seed v =>
    obtain ⟨hl, hk⟩ := State.whenLive_next h
    split at hk
    · simp_all [Completes]
    · exact ⟨hl, .inl ⟨.seed, by simp_all [Raises], by simp_all [Instr.opcode]⟩⟩
  | setck v =>
    obtain ⟨hl, hk⟩ := State.whenLive_next h
    simp_all [Completes]
  | abs b =>
    obtain ⟨ha, hk⟩ | ⟨hd, rfl⟩ := State.whenActive_next h
    · simp_all [Completes]
    · exact ⟨by simp [hd], .inl ⟨.phase, by simp [Raises, hd], rfl⟩⟩
  | vabs lane =>
    simp only [exec, execVabs] at h
    split at h
    case isFalse => simp at h
    obtain ⟨ha, hk⟩ | ⟨hd, rfl⟩ := State.whenActive_next h
    · simp_all [Completes]
    · exact ⟨by simp [hd], .inl ⟨.phase, by simp_all [Raises], rfl⟩⟩
  | fin =>
    obtain ⟨ha, hk⟩ | ⟨hd, rfl⟩ := State.whenActive_next h
    · simp_all [Completes]
    · exact ⟨by simp [hd], .inl ⟨.phase, by simp [Raises, hd], rfl⟩⟩
  | ser =>
    obtain ⟨hl, hk⟩ := State.whenLive_next h
    refine ⟨hl, ?_⟩
    split at hk
    next hc => exact .inl ⟨.nock, .inl ⟨rfl, hc⟩, by simpa [Instr.opcode] using hk.symm⟩
    next v hc =>
      split at hk
      next hb => exact .inl ⟨.serovr, .inr ⟨rfl, v, hc, hb⟩, by simpa [Instr.opcode] using hk.symm⟩
      next b hb => exact .inr ⟨v, b, hc, hb, by simpa using hk.symm⟩
  | rdCk =>
    obtain ⟨hl, hk⟩ := State.whenLive_next h
    refine ⟨hl, ?_⟩
    split at hk
    next hc => exact .inl ⟨.nock, ⟨rfl, hc⟩, by simpa [Instr.opcode] using hk.symm⟩
    next v hc => exact .inr ⟨v, hc, by simpa [State.respond] using hk.symm⟩
  | rdS1 =>
    obtain ⟨hl, hk⟩ := State.whenLive_next h
    simp_all [Completes, State.respond]
  | rdS2 =>
    obtain ⟨hl, hk⟩ := State.whenLive_next h
    simp_all [Completes, State.respond]
  | rdStatus =>
    obtain ⟨hl, hk⟩ := State.whenLive_next h
    simp_all [Completes, State.respond]
  | rdCap =>
    obtain ⟨hl, hk⟩ := State.whenLive_next h
    simp_all [Completes, State.respond]

/-- A command that completes answers the state it completes to. -/
theorem exec_of_completes {i : Instr} {s t : State} (hl : s.phase ≠ .fault)
    (h : Completes i s t) : exec i s = .next t := by
  cases i with
  | abs b => obtain ⟨ha, rfl⟩ := h; exact State.whenActive_of_active ha
  | vabs lane =>
    obtain ⟨ha, hlen, rfl⟩ := h
    simp only [exec, execVabs, hlen, if_true]
    exact State.whenActive_of_active ha
  | fin => obtain ⟨ha, rfl⟩ := h; exact State.whenActive_of_active ha
  | seed v =>
    obtain ⟨hv, rfl⟩ := h
    simp only [exec, execSeed, hv, if_true]
    exact State.whenLive_of_live hl
  | ser =>
    obtain ⟨v, b, hc, hb, rfl⟩ := h
    simp only [exec, execSer, hc, hb]
    exact State.whenLive_of_live hl
  | rdCk =>
    obtain ⟨v, hc, rfl⟩ := h
    simp only [exec, execRdCk, hc]
    exact State.whenLive_of_live hl
  | nop => obtain rfl := h; exact State.whenLive_of_live hl
  | init => obtain rfl := h; exact State.whenLive_of_live hl
  | setck v => obtain rfl := h; exact State.whenLive_of_live hl
  | rdS1 => obtain rfl := h; exact State.whenLive_of_live hl
  | rdS2 => obtain rfl := h; exact State.whenLive_of_live hl
  | rdStatus => obtain rfl := h; exact State.whenLive_of_live hl
  | rdCap => obtain rfl := h; exact State.whenLive_of_live hl

/-- A command that raises a fault answers the fault entry. -/
theorem exec_of_raises {i : Instr} {s : State} {c : Cause} (hl : s.phase ≠ .fault)
    (h : Raises i s c) : exec i s = .next (s.raise i.opcode.byte c) := by
  cases i <;> simp only [Raises] at h
  case seed v =>
    obtain ⟨rfl, h⟩ := h
    simp [exec, execSeed, State.whenLive_of_live hl, h, Instr.opcode]
  case abs => obtain ⟨rfl, h⟩ := h; exact State.whenActive_of_done h
  case vabs =>
    obtain ⟨rfl, h, hlen⟩ := h
    simp only [exec, execVabs, hlen, if_true]
    exact State.whenActive_of_done h
  case fin => obtain ⟨rfl, h⟩ := h; exact State.whenActive_of_done h
  case ser =>
    rcases h with ⟨rfl, h⟩ | ⟨rfl, v, h, hb⟩
    · simp only [exec, execSer, h]; exact State.whenLive_of_live hl
    · simp only [exec, execSer, h, hb]; exact State.whenLive_of_live hl
  case rdCk =>
    obtain ⟨rfl, h⟩ := h
    simp only [exec, execRdCk, h]
    exact State.whenLive_of_live hl

/-- What every command that completes leaves, said of the registers no sum enters. -/
structure Leaves (i : Instr) (s t : State) : Prop where
  cfg : t.cfg = s.cfg
  err : t.err = s.err
  cmd : t.cmd = s.cmd
  ck : i.opcode ∉ [.fin, .setck] → t.ck = s.ck
  sp : i.opcode ∉ [.fin, .setck, .ser] → t.sp = s.sp
  ckv : s.ckv = true → t.ckv = true
  phase : i.opcode ∉ [.init, .seed, .fin] → t.phase = s.phase
  finPhase : i.opcode = .fin → s.phase = .active ∧ t.phase = .done
  startPhase : i.opcode ∈ [.init, .seed] → t.phase = .active

theorem leaves_of_completes {i : Instr} {s t : State} (h : Completes i s t) : Leaves i s t := by
  cases i with
  | nop => obtain rfl := h; constructor <;> simp [Instr.opcode]
  | init => obtain rfl := h; constructor <;> simp [Instr.opcode, State.ckv]
  | seed v => obtain ⟨_, rfl⟩ := h; constructor <;> simp [Instr.opcode, State.ckv]
  | setck v => obtain rfl := h; constructor <;> simp [Instr.opcode, State.ckv]
  | abs b =>
    obtain ⟨_, rfl⟩ := h
    rw [State.foldPending_frame]
    constructor <;> simp [Instr.opcode, State.ckv]
  | vabs lane =>
    obtain ⟨_, _, rfl⟩ := h
    split
    · rw [State.absorbLane_frame]; constructor <;> simp [Instr.opcode, State.ckv]
    · rw [State.absorbBytes_frame]; constructor <;> simp [Instr.opcode, State.ckv]
  | fin =>
    obtain ⟨ha, rfl⟩ := h
    unfold State.settle
    rw [State.foldPending_frame]
    constructor <;> simp [Instr.opcode, State.ckv, ha]
  | ser => obtain ⟨v, b, _, _, rfl⟩ := h; constructor <;> simp [Instr.opcode, State.ckv]
  | rdCk => obtain ⟨v, _, rfl⟩ := h; constructor <;> simp [Instr.opcode, State.ckv]
  | rdS1 => obtain rfl := h; constructor <;> simp [Instr.opcode, State.ckv]
  | rdS2 => obtain rfl := h; constructor <;> simp [Instr.opcode, State.ckv]
  | rdStatus => obtain rfl := h; constructor <;> simp [Instr.opcode, State.ckv]
  | rdCap => obtain rfl := h; constructor <;> simp [Instr.opcode, State.ckv]

/-- R31: what a command does does not depend on the bytes left on CMD. -/
theorem completes_advance {i : Instr} {s t : State} (r : List Byte) (h : Completes i s t) :
    Completes i (s.advance r) (t.advance r) := by
  cases i with
  | abs b =>
    obtain ⟨ha, rfl⟩ := h
    exact ⟨ha, by rw [State.foldPending_advance, State.acc1_advance]⟩
  | vabs lane =>
    obtain ⟨ha, hl, rfl⟩ := h
    refine ⟨ha, hl, ?_⟩
    simp only [State.advance_cfg, State.absorbLane_advance, State.absorbBytes_advance]
    split <;> rfl
  | fin =>
    obtain ⟨ha, rfl⟩ := h
    refine ⟨ha, ?_⟩
    simp only [State.settle, State.foldPending_advance]
    rfl
  | ser => obtain ⟨v, b, h1, h2, rfl⟩ := h; exact ⟨v, b, h1, h2, rfl⟩
  | rdCk => obtain ⟨v, h1, rfl⟩ := h; exact ⟨v, h1, rfl⟩
  | seed v => obtain ⟨hv, rfl⟩ := h; exact ⟨hv, rfl⟩
  | nop => obtain rfl := h; rfl
  | init => obtain rfl := h; rfl
  | setck v => obtain rfl := h; rfl
  | rdS1 => obtain rfl := h; rfl
  | rdS2 => obtain rfl := h; rfl
  | rdStatus => obtain rfl := h; rfl
  | rdCap => obtain rfl := h; rfl

theorem raises_advance {i : Instr} {s : State} {c : Cause} (r : List Byte) (h : Raises i s c) :
    Raises i (s.advance r) c := by
  cases i <;> exact h

/-- R31: what exec answers moves with the bytes left on CMD, which it neither reads nor writes. -/
theorem exec_advance {i : Instr} {s t : State} (r : List Byte) (h : exec i s = .next t) :
    exec i (s.advance r) = .next (t.advance r) := by
  obtain ⟨hl, ⟨c, hr, rfl⟩ | hc⟩ := exec_next_cases h
  · exact exec_of_raises (s := s.advance r) hl (raises_advance r hr)
  · exact exec_of_completes (s := s.advance r) hl (completes_advance r hc)

end Sys2Proof.Machine
end

