-- ==== Sys2Proof/Laws/PerInstr.lean ====
section
/-! SUPPORT. The family `Packet`: facts about an instruction as syntax, one lemma per constructor. -/

namespace Sys2Proof.Laws.Packet

/-- R46, R50, R51: the packet of an instruction begins with the opcode byte that selects its row, and a
well-formed instruction's packet has the length that byte announces. -/
def Statement (i : Instr) : Prop :=
  ∃ op, (encode i).head? = some op ∧ Opcode.ofByte? op = some i.opcode ∧
    ∀ c : Config, i.wf c = true → (encode i).length = packetLength c op

theorem of_any (i : Instr) : Statement i := by
  refine ⟨i.opcode.byte, rfl, Opcode.ofByte?_byte _, fun c h => ?_⟩
  rw [packetLength_byte, ← Instr.payload_length h, encode, List.length_cons, Nat.add_comm]

theorem nop : Statement .nop := of_any _
theorem init : Statement .init := of_any _
theorem seed (imm32 : Word) : Statement (.seed imm32) := of_any _
theorem setck (imm32 : Word) : Statement (.setck imm32) := of_any _
theorem abs (imm8 : Byte) : Statement (.abs imm8) := of_any _
theorem vabs (lane : List Byte) : Statement (.vabs lane) := of_any _
theorem fin : Statement .fin := of_any _
theorem ser : Statement .ser := of_any _
theorem rdCk : Statement .rdCk := of_any _
theorem rdS1 : Statement .rdS1 := of_any _
theorem rdS2 : Statement .rdS2 := of_any _
theorem rdStatus : Statement .rdStatus := of_any _
theorem rdCap : Statement .rdCap := of_any _

end Sys2Proof.Laws.Packet
end

