-- ==== Sys2Proof/Laws/Step.lean ====
section
/-! SUPPORT. Everything a step can do, once (R130). -/

namespace Sys2Proof.Machine

/-- R130: a step that answers a next state either took a reserved opcode byte and raised ERR_ILLEGAL,
or took the packet of an instruction and executed it; the phase was not FAULT. -/
theorem step_next_cases {s t : State} (h : step s = .next t) :
    s.phase ≠ .fault ∧
      ((∃ op rest, s.fetch = .reserved op rest ∧ t = (s.advance rest).raise op .illegal) ∨
        ∃ i rest, s.fetch = .packet i rest ∧ exec i (s.advance rest) = .next t) := by
  obtain ⟨hl, hk⟩ := State.whenLive_next h
  refine ⟨hl, ?_⟩
  split at hk
  · simp at hk
  · simp at hk
  next op rest hf => exact .inl ⟨op, rest, hf, by simpa using hk.symm⟩
  next i rest hf => exact .inr ⟨i, rest, hf, hk⟩

end Sys2Proof.Machine
end

