-- ==== Sys2Proof/Laws/SumInv.lean ====
section
/-! SUPPORT. The invariant of the sums under each shared operation: REDUCE, ACC1, VACC, VFOLD and the
three conditional forms keep it, and starting a computation establishes it. -/

namespace Sys2Proof.Machine

variable {s : State}

theorem mod_MOD_lt (n : Nat) : n % MOD < MOD := Nat.mod_lt _ (by decide)

theorem toNat_eq_zero {w : Nat} {x : BitVec w} : x.toNat = 0 ↔ x = 0 := by
  constructor
  · intro h; exact BitVec.eq_of_toNat_eq (by simpa using h)
  · rintro rfl; simp

/-- R70: REDUCE takes remainders. -/
theorem reduce_s1 (s : State) : s.reduce.s1.toNat = s.s1.toNat % MOD := by
  simp only [State.reduce_s1, BitVec.toNat_umod]; rfl

theorem reduce_s2 (s : State) : s.reduce.s2.toNat = s.s2.toNat % MOD := by
  simp only [State.reduce_s2, BitVec.toNat_umod]; rfl

theorem reduce_lt (s : State) : s.reduce.s1.toNat < MOD ∧ s.reduce.s2.toNat < MOD := by
  rw [reduce_s1, reduce_s2]; exact ⟨mod_MOD_lt _, mod_MOD_lt _⟩

/-- R74: a reduced sum is within the bounds of a stride with no byte in it. -/
theorem le_stride_s1 {x : Nat} (h : x < MOD) : x ≤ MOD - 1 + 255 * (0 : BitVec 4).toNat := by
  simp; omega

theorem le_stride_s2 {x : Nat} (h : x < MOD) :
    x ≤ (MOD - 1) * ((0 : BitVec 4).toNat + 1)
      + 255 * ((0 : BitVec 4).toNat * ((0 : BitVec 4).toNat + 1) / 2) := by
  simp; omega

theorem block_vfold (s : State) : Block s.vfold :=
  Block.of_clearBlock _ (reduce_lt _).1 (reduce_lt _).2

/-- A block with nothing of a stride and room for a lane more. -/
theorem Block.sumInv (hb : Block s) (hc : s.cnt = 0) (hl : s.vn.toNat < s.cfg.lanesMax)
    (hv : s.cfg.hasVector = false → s.vn = 0) : s.SumInv where
  columns := hb.columns
  reduced := fun _ => ⟨hb.s1, hb.s2⟩
  stride_s1 := by rw [hc]; exact le_stride_s1 hb.s1
  stride_s2 := by rw [hc]; exact le_stride_s2 hb.s2
  exclusive := fun _ => hc
  lanes := hl
  noVector := hv
  blockSum := hb.blockSum
  columnBound := hb.columnBound
  vaBound := hb.vaBound

theorem sumInv_start (s : State) {a b : Word} (h1 : a.toNat < MOD) (h2 : b.toNat < MOD) :
    (s.start a b).SumInv :=
  Block.sumInv
    ⟨by simp, h1, h2, by simp, by simp, by simp, by simp⟩ rfl (lanesMax_pos _) (fun _ => rfl)

theorem sumInv_vfold (s : State) : s.vfold.SumInv :=
  (block_vfold s).sumInv rfl (lanesMax_pos _) (fun _ => rfl)

namespace State.SumInv

/-- R19 (a): with no lane pending the block registers are zero. -/
theorem empty (h : s.SumInv) (hv : s.vn = 0) :
    s.vs = 0 ∧ s.va = 0 ∧ s.vc = List.replicate s.cfg.W 0 := by
  have hn : s.vn.toNat = 0 := by simp [hv]
  have hvc : s.vc = List.replicate s.cfg.W 0 := by
    refine List.eq_replicate_iff.mpr ⟨h.columns, fun c hc => ?_⟩
    have := h.columnBound c hc
    rw [hn] at this
    exact toNat_eq_zero.mp (by omega)
  refine ⟨?_, ?_, hvc⟩
  · apply toNat_eq_zero.mp; rw [h.blockSum, hvc]; simp
  · have := h.vaBound; rw [hn] at this; exact toNat_eq_zero.mp (by omega)

/-- R74: ACC1's two additions are exact, and their bounds. -/
theorem addByte (h : s.SumInv) (b : Byte) :
    (s.addByte b).s1.toNat = s.s1.toNat + b.toNat ∧
      (s.addByte b).s2.toNat = s.s2.toNat + (s.s1.toNat + b.toNat) ∧
      s.s1.toNat + b.toNat ≤ 69600 ∧ s.s2.toNat + (s.s1.toNat + b.toNat) ≤ 1148520 := by
  have h1 := h.stride_s1
  have h2 := h.stride_s2
  have hc := s.cnt.isLt
  have hb := b.isLt
  generalize s.cnt.toNat = n at *
  unfold MOD at h1 h2
  have ht : n * (n + 1) / 2 ≤ 15 * 16 / 2 :=
    Nat.div_le_div_right (Nat.mul_le_mul (by omega) (by omega))
  simp only [State.addByte_s1, State.addByte_s2, BitVec.toNat_add, zext32_toNat]
  refine ⟨?_, ?_, ?_, ?_⟩ <;> omega

theorem reduce (h : s.SumInv) (hv : s.vn = 0) : s.reduce.SumInv :=
  { h with
    reduced := fun _ => reduce_lt s
    stride_s1 := le_stride_s1 (reduce_lt s).1
    stride_s2 := le_stride_s2 (reduce_lt s).2
    exclusive := fun hv' => absurd hv hv' }

theorem acc1 (h : s.SumInv) (hv : s.vn = 0) (b : Byte) : (s.acc1 b).SumInv := by
  obtain ⟨e1, e2, -, -⟩ := h.addByte b
  by_cases hc : s.cnt.toNat = 15
  · rw [State.acc1_last b hc]
    have hr := reduce_lt (s.addByte b)
    exact { h with
      reduced := fun _ => hr
      stride_s1 := le_stride_s1 hr.1
      stride_s2 := le_stride_s2 hr.2
      exclusive := fun hv' => absurd hv hv' }
  · rw [State.acc1_within b hc]
    have hc' := s.cnt.isLt
    have hb := b.isLt
    have h1 := h.stride_s1
    have h2 := h.stride_s2
    have ec : (s.cnt + 1).toNat = s.cnt.toNat + 1 := by
      rw [BitVec.toNat_add]; simp; omega
    have htri : (s.cnt.toNat + 1) * (s.cnt.toNat + 1 + 1) / 2 =
        s.cnt.toNat * (s.cnt.toNat + 1) / 2 + (s.cnt.toNat + 1) := by
      have : (s.cnt.toNat + 1) * (s.cnt.toNat + 1 + 1) =
          s.cnt.toNat * (s.cnt.toNat + 1) + 2 * (s.cnt.toNat + 1) := by ring
      omega
    refine { h with
      reduced := fun h0 => ?_
      stride_s1 := ?_
      stride_s2 := ?_
      exclusive := fun hv' => absurd hv hv' }
    · have : (s.cnt + 1).toNat = 0 := toNat_eq_zero.mpr h0
      omega
    · simp only [ec, e1]
      clear * - h1 hb
      generalize s.cnt.toNat = y at *
      unfold MOD at h1 ⊢
      omega
    · simp only [ec, htri]
      rw [e2]
      clear * - h1 h2 hb
      generalize s.cnt.toNat * (s.cnt.toNat + 1) / 2 = T at *
      generalize s.cnt.toNat = y at *
      unfold MOD at h1 h2 ⊢
      omega

theorem foldPending (h : s.SumInv) : s.foldPending.SumInv ∧ s.foldPending.vn = 0 := by
  by_cases hv : s.vn = 0
  · rw [State.foldPending_of_none hv]; exact ⟨h, hv⟩
  · rw [State.foldPending_of_block hv]; exact ⟨sumInv_vfold s, rfl⟩

theorem settle (h : s.SumInv) : s.settle.SumInv := h.foldPending.1.reduce h.foldPending.2

/-- R82: what VABS accumulates its lane into. -/
theorem reducePending (h : s.SumInv) : Block s.reducePending ∧ s.reducePending.cnt = 0 := by
  by_cases hc : s.cnt = 0
  · rw [State.reducePending_of_none hc]; exact ⟨h.block hc, hc⟩
  · rw [State.reducePending_of_stride hc]
    have hv : s.vn = 0 := by by_contra hv; exact hc (h.exclusive hv)
    exact ⟨(h.reduce hv).block rfl, rfl⟩

theorem absorbBytes (h : s.SumInv) (hv : s.vn = 0) (l : List Byte) : (s.absorbBytes l).SumInv := by
  unfold State.absorbBytes
  induction l generalizing s with
  | nil => exact h
  | cons b bs ih => exact ih (h.acc1 hv b) (by simp [hv])

end State.SumInv

end Sys2Proof.Machine
end

