-- ==== Sys2Proof/Tests/Slice0.lean ====
section
/-! SUPPORT. Tests of the model against words written out from the encodings of `spec/30_encoding.md` and
against the vectors of `spec/95_test_vectors.md` (named in each comment), and a witness for every
obligation that has hypotheses. -/

namespace Sys2Proof.Tests

open Sys2Proof Sys2Proof.Machine

/-! ## Small states -/

/-- Lane width 16, vector path present. -/
def narrow : Config := ⟨16, true, by decide⟩

/-- Lane width 16, vector path absent. -/
def scalarOnly : Config := ⟨16, false, by decide⟩

/-- The lane 0x00 .. 0x1F of V1. -/
def countingLane : List Byte := (List.range 32).map (BitVec.ofNat 8)

/-- The state after reset with these bytes on CMD. -/
def withCmd (bytes : List Byte) : State := { State.reset with cmd := bytes }

/-- ACTIVE, with `n` zero bytes in the pending stride. -/
def midStride (n : BitVec 4) : State := { State.reset with cnt := n }

/-- ACTIVE, with `n` zero lanes pending. -/
def midBlock (n : BitVec 16) : State := { State.reset with vn := n }

/-- F2: "Wikipedia" finalised, `k` bytes of its checksum sent. -/
def finished (k : Fin 5) : State :=
  { State.reset with s1 := 920, s2 := 4582, ck := some 0x11E60398, sp := k, phase := .done }

/-- X2: after `FIN; FIN`. -/
def faulted : State := { State.reset with ck := some 1, phase := .fault, err := 0x2002 }

/-- The outcome is a next state with this property. -/
def Answers (r : Result) (p : State → Prop) : Prop := ∃ t, r = .next t ∧ p t

/-! ## Well-formedness -/

theorem smoke_vabs_short_refused : (Instr.vabs (List.replicate 31 0)).wf Config.default = false := by
  decide

theorem smoke_vabs_long_refused : (Instr.vabs (List.replicate 33 0)).wf Config.default = false := by
  decide

theorem smoke_vabs_whole_accepted : (Instr.vabs (List.replicate 32 0)).wf Config.default = true := by
  decide

theorem smoke_lane_width_range :
    Config.ofParams? 15 true = none ∧ Config.ofParams? 33 false = none ∧
      Config.ofParams? 16 true = some narrow ∧ Config.ofParams? 32 true = some Config.default := by
  decide

/-! ## Decoding: words written out from R46 to R50 -/

theorem test_decode_nop : decode Config.default [0b00000000] = .packet .nop [] := by decide

theorem test_decode_init : decode Config.default [0b00000001] = .packet .init [] := by decide

/-- E1 -/
theorem test_decode_seed :
    decode Config.default [0b00000010, 0x03, 0xDA, 0x01, 0x95] = .packet (.seed 0x03DA0195) [] := by
  decide

/-- E2 -/
theorem test_decode_setck :
    decode Config.default [0b00000011, 0x11, 0xE6, 0x03, 0x98] = .packet (.setck 0x11E60398) [] := by
  decide

/-- E3 -/
theorem test_decode_abs : decode Config.default [0b00010000, 0x57] = .packet (.abs 0x57) [] := by
  decide

/-- E5 -/
theorem test_decode_vabs :
    decode Config.default (0b00010001 :: countingLane ++ [0x10, 0x20]) =
      .packet (.vabs countingLane) [0x10, 0x20] := by
  decide

theorem test_decode_fin : decode Config.default [0b00100000] = .packet .fin [] := by decide

theorem test_decode_ser : decode Config.default [0b00100001] = .packet .ser [] := by decide

theorem test_decode_rdCk : decode Config.default [0b00110000] = .packet .rdCk [] := by decide

theorem test_decode_rdS1 : decode Config.default [0b00110001] = .packet .rdS1 [] := by decide

theorem test_decode_rdS2 : decode Config.default [0b00110010] = .packet .rdS2 [] := by decide

theorem test_decode_rdStatus : decode Config.default [0b00110011] = .packet .rdStatus [] := by decide

theorem test_decode_rdCap : decode Config.default [0b00110100] = .packet .rdCap [] := by decide

/-- E12: 31 bytes behind a VABS opcode hold at W = 32 and are more than a packet at W = 16. -/
theorem test_decode_vabs_held :
    decode Config.default (0x11 :: List.replicate 31 0) = .held ∧
      decode narrow (0x11 :: List.replicate 31 0) =
        .packet (.vabs (List.replicate 16 0)) (List.replicate 15 0) := by
  decide

/-- X6, X8 -/
theorem test_decode_reserved :
    decode Config.default [0x35] = .reserved 0x35 [] ∧ decode Config.default [0x04] = .reserved 0x04 [] ∧
      decode Config.default [0x12] = .reserved 0x12 [] ∧
      decode Config.default [0x22] = .reserved 0x22 [] := by
  decide

/-- The host's numbering: the first byte in the low bits. -/
theorem test_decodeTableWord :
    decodeTableWord 40 0x9501DA0302 = some (.seed 0x03DA0195) ∧
      decodeTableWord 8 0x11 = some (.vabs (List.replicate 32 0)) ∧ decodeTableWord 8 0x34 = some .rdCap ∧
      decodeTableWord 8 0x35 = none := by
  decide

/-- The next step after `withFetchWord` runs that instruction and leaves the bytes behind it. -/
theorem test_withFetchWord :
    Answers (step (State.reset.withFetchWord 16 0x5710)) fun t => t.s1 = 88 ∧ t.cmd = [] :=
  ⟨_, rfl, by decide⟩

/-- E4 -/
theorem test_data :
    encodeAll (Assembler.data (Assembler.ascii "Wikipedia")) =
      [0x10, 0x57, 0x10, 0x69, 0x10, 0x6B, 0x10, 0x69, 0x10, 0x70, 0x10, 0x65, 0x10, 0x64, 0x10, 0x69,
        0x10, 0x61] := by
  decide

/-- E6: the cut of 40 bytes at W = 16. -/
theorem test_vdata :
    (Assembler.vdata narrow ((List.range 40).map (BitVec.ofNat 8))).map (fun i => (encode i).length) =
      [17, 17, 2, 2, 2, 2, 2, 2, 2, 2] := by
  decide

/-- E8 -/
theorem test_checksum_stream :
    encodeAll (Assembler.checksum Config.default [0x61]) = [0x01, 0x10, 0x61, 0x20, 0x30] := by
  decide

/-- R54: the example of the rule, and a byte. -/
theorem test_text :
    Assembler.text (.seed 0x03DA0195) = "SEED 0x03DA0195".toList ∧
      Assembler.text (.abs 0x57) = "ABS 0x57".toList ∧
      Assembler.text (.vabs [0x0A, 0xFF]) = "VABS 0x0A, 0xFF".toList := by
  decide

/-! ## One step, against the vectors -/

/-- K1 -/
theorem test_nop : Answers (step (withCmd [0x00])) (· = State.reset) := ⟨_, rfl, rfl⟩

/-- K6: INIT in DONE returns to ACTIVE and keeps CK. -/
theorem test_init :
    Answers (exec .init (finished 2)) fun t =>
      t.s1 = 1 ∧ t.s2 = 0 ∧ t.phase = .active ∧ t.ck = some 0x11E60398 ∧ t.sp = 2 :=
  ⟨_, rfl, by decide⟩

/-- P3 -/
theorem test_seed :
    Answers (step (withCmd [0x02, 0x03, 0xDA, 0x01, 0x95])) fun t =>
      t.s1 = 405 ∧ t.s2 = 986 ∧ t.phase = .active :=
  ⟨_, rfl, by decide⟩

/-- K12 -/
theorem test_seed_out_of_range :
    Answers (exec (.seed 0xFFF10000) State.reset) fun t =>
      t.phase = .fault ∧ t.err = 0x0203 ∧ t.s1 = 1 ∧ t.s2 = 0 :=
  ⟨_, rfl, by decide⟩

/-- K15 -/
theorem test_setck :
    Answers (exec (.setck 0xAABBCCDD) State.reset) fun t =>
      t.ck = some 0xAABBCCDD ∧ t.status = 0x00000004 ∧ t.s1 = 1 :=
  ⟨_, rfl, by decide⟩

/-- S10: the second byte of "Wikipedia"; S2 receives the new S1. -/
theorem test_abs :
    Answers (exec (.abs 0x69) { State.reset with s1 := 88, s2 := 88, cnt := 1 }) fun t =>
      t.s1 = 193 ∧ t.s2 = 281 ∧ t.cnt = 2 :=
  ⟨_, rfl, by decide⟩

/-- The worst stride of part 2.3: the sixteenth byte reduces. -/
theorem test_abs_reduces :
    Answers (exec (.abs 0xFF) { State.reset with s1 := 69345, s2 := 1078920, cnt := 15 }) fun t =>
      t.s1 = 4079 ∧ t.s2 = 34663 ∧ t.cnt = 0 :=
  ⟨_, rfl, by decide⟩

/-- V2: the second lane. -/
theorem test_vabs_parks :
    Answers
      (exec (.vabs ((List.range 32).map fun j => BitVec.ofNat 8 (32 + j)))
        { State.reset with vn := 1, vs := 496, vc := countingLane.map zext32 }) fun t =>
      t.vn = 2 ∧ t.vs = 2016 ∧ t.va = 496 ∧ t.vc.getD 5 0 = 42 ∧ t.s1 = 1 ∧ t.s2 = 0 :=
  ⟨_, rfl, by decide⟩

/-- V10: the 173rd lane of 0xFF folds in the same step. -/
theorem test_vabs_folds :
    Answers
      (exec (.vabs (List.replicate 32 0xFF))
        { State.reset with
          s1 := 65520, s2 := 65520, vn := 172, vs := 1403520, va := 120000960,
          vc := List.replicate 32 43860 }) fun t =>
      t.s1 = 35738 ∧ t.s2 = 33935 ∧ t.vn = 0 ∧ t.status = 0 :=
  ⟨_, rfl, by decide⟩

/-- F2 -/
theorem test_fin :
    Answers (exec .fin { State.reset with s1 := 920, s2 := 4582, cnt := 9 }) fun t =>
      t.ck = some 0x11E60398 ∧ t.cnt = 0 ∧ t.phase = .done ∧ t.status = 0x00000005 :=
  ⟨_, rfl, by decide⟩

/-- V5: FIN folds a pending lane. -/
theorem test_fin_folds :
    Answers
      (exec .fin { State.reset with vn := 1, vs := 496, vc := countingLane.map zext32 }) fun t =>
      t.ck = some 0x157001F1 ∧ t.vn = 0 ∧ t.vs = 0 :=
  ⟨_, rfl, by decide⟩

/-- F6: the second byte. -/
theorem test_ser :
    Answers (exec .ser (finished 1)) fun t =>
      t.out = [.tx 0xE6] ∧ t.sp = 2 ∧ t.status = 0x00000015 :=
  ⟨_, rfl, by decide⟩

/-- X11: the fifth SER. -/
theorem test_ser_overrun :
    Answers (exec .ser (finished 4)) fun t => t.err = 0x2105 ∧ t.phase = .fault ∧ t.out = [] :=
  ⟨_, rfl, by decide⟩

/-- P1 -/
theorem test_rdCk :
    Answers (exec .rdCk (finished 0)) fun t => t.out = [.rsp 0x11E60398] ∧ t.ck = some 0x11E60398 :=
  ⟨_, rfl, by decide⟩

/-- X5 -/
theorem test_rdCk_none :
    Answers (exec .rdCk State.reset) fun t => t.err = 0x3004 ∧ t.phase = .fault :=
  ⟨_, rfl, by decide⟩

/-- Part 2.3: RD.S1 answers the unreduced sum. -/
theorem test_rdS1 :
    Answers (exec .rdS1 { State.reset with s1 := 65775, s2 := 131295, cnt := 1 }) fun t =>
      t.out = [.rsp 0x000100EF] :=
  ⟨_, rfl, by decide⟩

/-- Part 2.3: RD.S2 answers the unreduced sum. -/
theorem test_rdS2 :
    Answers (exec .rdS2 { State.reset with s1 := 65775, s2 := 131295, cnt := 1 }) fun t =>
      t.out = [.rsp 0x000200DF] :=
  ⟨_, rfl, by decide⟩

/-- P7: STATUS in ACTIVE with a checksum latched, one byte sent and one byte absorbed. -/
theorem test_rdStatus :
    Answers (exec .rdStatus { State.reset with ck := some 0x00620062, sp := 1, cnt := 1 }) fun t =>
      t.out = [.rsp 0x0000010C] :=
  ⟨_, rfl, by decide⟩

/-- The CAP words of W = 32 and W = 16 (part 2.6, V11). -/
theorem test_rdCap :
    Answers (exec .rdCap State.reset) (·.out = [.rsp 0x00AD0120]) ∧
      Answers (exec .rdCap (State.resetOf narrow)) (·.out = [.rsp 0x015B0110]) :=
  ⟨⟨_, rfl, by decide⟩, ⟨_, rfl, by decide⟩⟩

/-- X7 -/
theorem test_reserved_faults :
    Answers (step (withCmd [0xFF, 0x20])) fun t =>
      t.err = 0xFF01 ∧ t.phase = .fault ∧ t.cmd = [0x20] :=
  ⟨_, rfl, by decide⟩

/-- E11, P6 -/
theorem test_held : step (withCmd [0x02, 0x03, 0xDA]) = .fault .held := by rfl

/-- R29: the state after reset lists what the table lists. -/
theorem test_reset :
    State.reset.s1 = 1 ∧ State.reset.status = 0 ∧ State.reset.ck = none ∧
      State.reset.vc = List.replicate 32 0 ∧ State.reset.phase = .active := by
  decide

/-! ## Witnesses: states and operands that meet the hypotheses of the obligations -/

theorem sumInv_reset : State.reset.SumInv := sumInv_start State.reset (by decide) (by decide)

/-- A stride of zero bytes after reset. -/
theorem sumInv_midStride : (midStride 15).SumInv :=
  { sumInv_reset with
    reduced := fun h => absurd h (by decide)
    stride_s1 := by decide
    stride_s2 := by decide
    exclusive := fun h => absurd rfl h }

/-- A block of zero lanes after reset. -/
theorem sumInv_midBlock {n : BitVec 16} (h : n.toNat < Config.default.lanesMax) :
    (midBlock n).SumInv :=
  { sumInv_reset with
    exclusive := fun _ => rfl
    lanes := h
    noVector := fun hv => Bool.noConfusion hv
    columnBound := fun c hc => by rw [List.eq_of_mem_replicate hc]; exact Nat.zero_le _
    vaBound := Nat.zero_le _ }

theorem inv_reset (bytes : List Byte) : (withCmd bytes).Inv :=
  { sumInv_reset with
    unlatched := fun _ => rfl
    finalised := fun h => Phase.noConfusion h
    noErr := fun _ => rfl
    faultErr := fun h => Phase.noConfusion h }

theorem tracks_reset : State.reset.Tracks .fresh :=
  ⟨[], [], rfl, rfl, by simp, rfl, rfl, fun _ => ⟨rfl, rfl⟩, rfl, rfl, by decide⟩

theorem witness_ConstantsAreAsAudited : MOD < 65522 ∧ 65522 < 2 ^ 16 := by decide

theorem witness_WrittenPacketsDecode : (List.replicate 32 (0 : Byte)).length = Config.default.W := by
  decide

theorem witness_DecodeOfEncode :
    (Instr.vabs countingLane).wf Config.default = true ∧ Instr.ser.wf Config.default = true := by
  decide

theorem witness_StepRunsDecodedInstruction :
    (withCmd [0x21, 0x20]).phase ≠ .fault ∧
      decode (withCmd [0x21, 0x20]).cfg (withCmd [0x21, 0x20]).cmd = .packet .ser [0x20] := by
  decide

theorem witness_TruncatedPacketHolds :
    (withCmd [0x02, 0x03, 0xDA]).phase ≠ .fault ∧ Instr.wf Config.default (.seed 0x03DA0195) = true ∧
      ([0x02, 0x03, 0xDA] : List Byte) ≠ [] ∧ ([0x01, 0x95] : List Byte) ≠ [] ∧
      [0x02, 0x03, 0xDA] ++ [0x01, 0x95] = encode (.seed 0x03DA0195) ∧
      (withCmd [0x02, 0x03, 0xDA]).cmd = [0x02, 0x03, 0xDA] := by
  decide

theorem witness_ReservedOpcodeFaults :
    (withCmd [0x04, 0x20]).phase ≠ .fault ∧ (withCmd [0x04, 0x20]).cmd = 0x04 :: [0x20] ∧
      (0x04#8) ∉ [0x00#8, 0x01#8, 0x02#8, 0x03#8, 0x10#8, 0x11#8, 0x20#8, 0x21#8, 0x30#8, 0x31#8,
        0x32#8, 0x33#8, 0x34#8] ∧
      ∃ t, step (withCmd [0x04, 0x20]) = .next t :=
  ⟨by decide, by decide, by decide, _, rfl⟩

theorem witness_FaultPhaseAbsorbs :
    faulted.phase = .fault ∧ Instr.wf faulted.cfg .init = true ∧
      Instr.wf faulted.cfg (.vabs countingLane) = true := by
  decide

theorem witness_StepTakesExactlyOnePacket : ∃ t, step (withCmd [0x10, 0x57, 0x20]) = .next t :=
  ⟨_, rfl⟩

theorem witness_NopChangesNothing :
    (withCmd [0x00, 0x20]).phase ≠ .fault ∧ (finished 0).phase ≠ .fault ∧
      (withCmd [0x00, 0x20]).cmd = 0x00 :: [0x20] := by
  decide

theorem witness_InitStartsDefaultComputation : (finished 4).phase ≠ .fault := by decide

theorem witness_SeedStartsGivenComputation :
    (finished 0).phase ≠ .fault ∧ (0xFFF0FFF0 : Word).toNat / 65536 < 65521 ∧
      (0xFFF0FFF0 : Word).toNat % 65536 < 65521 := by
  decide

theorem witness_SeedOutOfRangeFaults :
    (finished 0).phase ≠ .fault ∧ 65521 ≤ (0xFFF1FFF0 : Word).toNat / 65536 ∧
      65521 ≤ (0xFFF0FFF1 : Word).toNat % 65536 := by
  decide

theorem witness_SetckLoadsAnyChecksum :
    State.reset.phase ≠ .fault ∧ (finished 3).phase ≠ .fault := by
  decide

theorem witness_AbsAccumulatesByte :
    (midStride 15).SumInv ∧ (midStride 15).phase = .active ∧ (midStride 15).vn = 0 ∧
      (midStride 15).cnt.toNat = 15 ∧ State.reset.SumInv ∧ State.reset.phase = .active ∧
      State.reset.vn = 0 ∧ State.reset.cnt.toNat < 15 :=
  ⟨sumInv_midStride, by decide, by decide, by decide, sumInv_reset, by decide, by decide, by decide⟩

theorem witness_AbsFoldsPendingBlock :
    (midBlock 172).SumInv ∧ (midBlock 172).phase = .active ∧ (midBlock 172).vn ≠ 0 :=
  ⟨sumInv_midBlock (by decide), by decide, by decide⟩

/-- The last lane that leaves room; the first with a stride pending. -/
theorem witness_VabsParksLane :
    ((midBlock 171).SumInv ∧ (midBlock 171).phase = .active ∧ (midBlock 171).cfg.hasVector = true ∧
      countingLane.length = (midBlock 171).cfg.W ∧
      (midBlock 171).vn.toNat + 1 < (midBlock 171).cfg.lanesMax ∧ 31 < (midBlock 171).cfg.W) ∧
    (midStride 15).SumInv ∧ (midStride 15).phase = .active ∧ (midStride 15).cfg.hasVector = true ∧
      countingLane.length = (midStride 15).cfg.W ∧
      (midStride 15).vn.toNat + 1 < (midStride 15).cfg.lanesMax :=
  ⟨⟨sumInv_midBlock (by decide), by decide⟩, sumInv_midStride, by decide⟩

theorem witness_VabsFoldsFullBlock :
    (midBlock 172).SumInv ∧ (midBlock 172).phase = .active ∧ (midBlock 172).cfg.hasVector = true ∧
      countingLane.length = (midBlock 172).cfg.W ∧
      (midBlock 172).vn.toNat + 1 = (midBlock 172).cfg.lanesMax :=
  ⟨sumInv_midBlock (by decide), by decide⟩

theorem witness_VabsFallsBackToScalar :
    (State.resetOf scalarOnly).phase = .active ∧ (State.resetOf scalarOnly).cfg.hasVector = false ∧
      (State.resetOf scalarOnly).vn = 0 ∧
      (List.replicate 16 (0xFF : Byte)).length = (State.resetOf scalarOnly).cfg.W := by
  decide

theorem witness_OnlyWholeLanesExecute :
    (List.replicate 31 (0 : Byte)).length ≠ State.reset.cfg.W := by
  decide

theorem witness_CommandsAfterFinFault :
    (finished 0).phase = .done ∧ countingLane.length = (finished 0).cfg.W ∧
      State.reset.phase = .active ∧ seedLegal 0xFFF0FFF0 = true := by
  decide

theorem witness_NoSumReachesWordSize :
    ((midStride 15).SumInv ∧ (midStride 15).vn = 0) ∧
      (midBlock 172).SumInv ∧ (midBlock 172).cnt = 0 ∧ countingLane.length = (midBlock 172).cfg.W ∧
      31 < (midBlock 172).cfg.W :=
  ⟨⟨sumInv_midStride, rfl⟩, sumInv_midBlock (by decide), by decide⟩

/-- As many lanes as a block can hold. -/
theorem witness_FoldEqualsScalarAccumulation :
    State.reset.s1.toNat < MOD ∧ State.reset.s2.toNat < MOD ∧ State.reset.vn = 0 ∧
      State.reset.vs = 0 ∧ State.reset.va = 0 ∧
      State.reset.vc = List.replicate State.reset.cfg.W 0 ∧
      (∀ lane ∈ List.replicate 173 countingLane, lane.length = State.reset.cfg.W) ∧
      (List.replicate 173 countingLane).length ≤ State.reset.cfg.lanesMax :=
  ⟨by decide, by decide, by decide, by decide, by decide, by decide,
    fun _ h => by rw [List.eq_of_mem_replicate h]; decide, by rw [List.length_replicate]; decide⟩

theorem witness_FinLatchesChecksum :
    (midBlock 172).SumInv ∧ (midBlock 172).phase = .active ∧ (midStride 15).SumInv ∧
      (midStride 15).phase = .active :=
  ⟨sumInv_midBlock (by decide), by decide, sumInv_midStride, by decide⟩

theorem witness_SerSendsNextByte :
    (finished 3).phase ≠ .fault ∧ (finished 3).ck = some 0x11E60398 ∧ (finished 3).sp.val < 4 := by
  decide

theorem witness_LatchAndSerialiserFaults :
    (State.reset.phase ≠ .fault ∧ State.reset.ck = none) ∧
      (finished 4).phase ≠ .fault ∧ (finished 4).ck = some 0x11E60398 ∧ (finished 4).sp = 4 := by
  decide

theorem witness_TrailerPutsBigEndianChecksum :
    (finished 0).phase ≠ .fault ∧ (finished 0).ck = some 0x11E60398 ∧ (finished 0).sp = 0 := by
  decide

theorem witness_ReadsAnswerRegisters :
    (finished 4).phase ≠ .fault ∧ (finished 4).ck = some 0x11E60398 := by
  decide

theorem witness_ReadStatusShowsSequencing :
    (midBlock 172).phase ≠ .fault ∧ (finished 4).phase ≠ .fault := by
  decide

theorem witness_ReadCapShowsConfiguration :
    State.reset.phase ≠ .fault ∧
      ∃ t u, step (withCmd [0x20]) = .next t ∧ exec .rdCap (withCmd [0x20]) = .next u ∧
        t.phase ≠ .fault :=
  ⟨by decide, _, _, rfl, rfl, by decide⟩

theorem witness_FaultEntryWritesOnlyItsRecord :
    Answers (step (withCmd [0x21])) (·.phase = .fault) ∧
      Answers (step (withCmd [0x20])) (·.phase ≠ .fault) :=
  ⟨⟨_, rfl, by decide⟩, ⟨_, rfl, by decide⟩⟩

/-- Each of the four listed conditions, and none of them. -/
theorem witness_CommandFaultsExactlyWhenListed :
    ((finished 0).phase ≠ .fault ∧ (finished 0).phase = .done ∧
      Instr.wf (finished 0).cfg (.vabs countingLane) = true) ∧
    (State.reset.phase ≠ .fault ∧ 65521 ≤ (0xFFF10000 : Word).toNat / 65536) ∧
    (State.reset.ck = none ∧ Instr.wf State.reset.cfg .rdCk = true) ∧
    ((finished 4).ck ≠ none ∧ (finished 4).sp = 4 ∧ Instr.wf (finished 4).cfg .ser = true) ∧
    Answers (exec .ser (finished 3)) (·.phase ≠ .fault) :=
  ⟨by decide, by decide, by decide, by decide, _, rfl, by decide⟩

theorem witness_PhaseTransitions :
    Answers (exec .fin State.reset) (·.phase ≠ .fault) ∧
      Answers (exec .init (finished 0)) (·.phase ≠ .fault) ∧
      Answers (exec .ser (finished 0)) (·.phase ≠ .fault) :=
  ⟨⟨_, rfl, by decide⟩, ⟨_, rfl, by decide⟩, ⟨_, rfl, by decide⟩⟩

theorem witness_LatchWrittenOnlyByFinAndSetck :
    (∃ t, step { finished 0 with cmd := [0x01] } = .next t ∧
      ({ finished 0 with cmd := [0x01] } : State).ckv = true) ∧
      ∃ t, exec (.abs 0x57) State.reset = .next t ∧ (Instr.abs 0x57).opcode ∉ [.fin, .setck, .ser] :=
  ⟨⟨_, rfl, by decide⟩, _, rfl, by decide⟩

theorem witness_OutputsOnlyFromSerAndReads :
    Answers (exec .ser State.reset) (·.phase = .fault) ∧
      Answers (exec .ser (finished 0)) (·.phase ≠ .fault) ∧
      Answers (exec .rdCap State.reset) (·.phase ≠ .fault) ∧
      Answers (exec .nop State.reset) (·.phase ≠ .fault) :=
  ⟨⟨_, rfl, by decide⟩, ⟨_, rfl, by decide⟩, ⟨_, rfl, by decide⟩, ⟨_, rfl, by decide⟩⟩

theorem witness_OpcodesAloneDriveSequencing :
    (Instr.abs 0x00).opcode = (Instr.abs 0xFF).opcode ∧ (Instr.abs 0x00).opcode ≠ .seed ∧
      Instr.wf State.reset.cfg (.abs 0x00) = true ∧ Instr.wf State.reset.cfg (.abs 0xFF) = true ∧
      State.reset.SameControl { State.reset with s1 := 88, s2 := 88 } ∧
      ∃ t, exec (.abs 0x00) State.reset = .next t :=
  ⟨rfl, by decide, rfl, rfl, ⟨rfl, rfl, rfl, rfl, rfl, rfl, rfl⟩, _, rfl⟩

theorem witness_ResetRestoresEveryRegister : (0 : Word) ∈ State.reset.hostReset.vc := by decide

theorem witness_StepKeepsInv :
    (withCmd [0x10, 0x57]).Inv ∧ ∃ t, step (withCmd [0x10, 0x57]) = .next t :=
  ⟨inv_reset _, _, rfl⟩

theorem witness_InvGivesVectorInvariants :
    (State.reset.SumInv ∧ State.reset.vn = 0 ∧ State.reset.cnt = 0) ∧
      ((midBlock 172).SumInv ∧ 0 < (midBlock 172).vn.toNat) ∧
      (State.resetOf scalarOnly).SumInv ∧ (State.resetOf scalarOnly).cfg.hasVector = false :=
  ⟨⟨sumInv_reset, rfl, rfl⟩, ⟨sumInv_midBlock (by decide), by decide⟩,
    sumInv_start (State.resetOf scalarOnly) (by decide) (by decide), rfl⟩

theorem witness_CommandsKeepTracks :
    State.reset.SumInv ∧ State.reset.Tracks .fresh ∧
      Answers (exec (.abs 0x57) State.reset) (·.phase ≠ .fault) :=
  ⟨sumInv_reset, tracks_reset, _, rfl, by decide⟩

theorem witness_FinLatchesReference :
    State.reset.SumInv ∧ State.reset.Tracks .fresh ∧ State.reset.phase = .active :=
  ⟨sumInv_reset, tracks_reset, rfl⟩

theorem witness_ChecksumStreamAnswersAdler32 :
    (withCmd [0x01, 0x10, 0x61, 0x20, 0x30]).phase ≠ .fault ∧
      (withCmd [0x01, 0x10, 0x61, 0x20, 0x30]).cmd =
        encodeAll (Assembler.checksum (withCmd [0x01, 0x10, 0x61, 0x20, 0x30]).cfg [0x61]) := by
  decide

/-- Started by INIT, and by a SEED at the end of its range. -/
theorem witness_AnyMixedStreamAnswersReference :
    let cmds := [Instr.abs 0x01, .vabs countingLane, .abs 0xFF]
    let s := withCmd (encodeAll (.seed 0xFFF0FFF0 :: cmds ++ [.fin, .rdCk]))
    s.phase ≠ .fault ∧ Starts (.seed 0xFFF0FFF0) (65520, 65520) ∧ Starts .init (1, 0) ∧
      (∀ i ∈ cmds, absorbs i = true ∧ i.wf s.cfg = true) ∧
      s.cmd = encodeAll (.seed 0xFFF0FFF0 :: cmds ++ [.fin, .rdCk]) :=
  ⟨by decide, .inr ⟨0xFFF0FFF0, rfl, by decide, by decide⟩, .inl ⟨rfl, rfl⟩, by decide, rfl⟩

/-- Sixteen bytes, in one lane at W = 16 and one by one at W = 32. -/
theorem witness_CutOfMessageIrrelevant :
    (State.resetOf narrow).phase ≠ .fault ∧ State.reset.phase ≠ .fault ∧ Starts .init (1, 0) ∧
      (∀ i ∈ [Instr.vabs (List.replicate 16 0xFF)],
        absorbs i = true ∧ i.wf (State.resetOf narrow).cfg = true) ∧
      (∀ i ∈ Assembler.data (List.replicate 16 0xFF),
        absorbs i = true ∧ i.wf State.reset.cfg = true) ∧
      message [Instr.vabs (List.replicate 16 0xFF)] =
        message (Assembler.data (List.replicate 16 0xFF)) :=
  ⟨by decide, by decide, .inl ⟨rfl, rfl⟩, by decide, by decide, by decide⟩

theorem witness_EmptyAndSingleByteChecksums : (finished 4).phase ≠ .fault := by decide

theorem witness_ContinuationFromChecksum : State.reset.phase ≠ .fault := by decide

theorem witness_ReferenceClosedForm : 65520 < 65521 ∧ 0 < 65521 := by decide

theorem witness_ReductionCadenceIrrelevant :
    ((65520, 65520) : Nat × Nat).1 < 65521 ∧ ((65520, 65520) : Nat × Nat).2 < 65521 := by
  decide

theorem witness_PseudoInstructionsCarryTheirBytes :
    Instr.vabs (countingLane.take 16) ∈ Assembler.vdata narrow countingLane := by
  decide

end Sys2Proof.Tests
end

section
/-! PROOFS of the family `00_scope.md`: the constants of the hardware are as audited (R5 to R7). -/

namespace Sys2Proof

/-- R5: the modulus is prime. -/
theorem MOD_prime : Nat.Prime MOD := by
  unfold MOD
  norm_num

/-- R5: every number between the modulus and 2^16 has one of six small prime factors. -/
theorem small_factor_of_MOD_lt {n : Nat} (hn : MOD < n) (hn' : n < 2 ^ 16) :
    ∃ p ∈ [2, 3, 5, 7, 13, 19], p ∣ n := by
  unfold MOD at hn
  interval_cases n <;> decide

/-- R5: no prime lies between the modulus and 2^16. -/
theorem not_prime_of_MOD_lt {n : Nat} (hn : MOD < n) (hn' : n < 2 ^ 16) : ¬ Nat.Prime n := by
  have hfactors : ∀ p ∈ [2, 3, 5, 7, 13, 19], 2 ≤ p ∧ p < MOD := by decide
  obtain ⟨p, hp, hpn⟩ := small_factor_of_MOD_lt hn hn'
  obtain ⟨htwo, hlt⟩ := hfactors p hp
  exact Nat.not_prime_of_dvd_of_lt hpn htwo (hlt.trans hn)

/-- R6: the largest value the second sum can reach after `n` unreduced bytes, each sum starting
at most at `MOD - 1`. -/
def unreducedBound (n : Nat) : Nat := 255 * n * (n + 1) / 2 + (n + 1) * (MOD - 1)

theorem unreducedBound_mono : Monotone unreducedBound := by
  intro n m h
  unfold unreducedBound
  gcongr

/-- R6: with `NMAX` bytes the bound still fits in 32 bits. -/
theorem unreducedBound_NMAX : unreducedBound NMAX ≤ 2 ^ 32 - 1 := by decide

/-- R6: with one byte more it does not. -/
theorem lt_unreducedBound_NMAX_succ : 2 ^ 32 - 1 < unreducedBound (NMAX + 1) := by decide

/-- R6: `NMAX` is the largest unreduced count, since the bound grows with the count. -/
theorem unreducedBound_le_iff (n : Nat) : unreducedBound n ≤ 2 ^ 32 - 1 ↔ n ≤ NMAX := by
  constructor
  · intro h
    by_contra hn
    have hmono : unreducedBound (NMAX + 1) ≤ unreducedBound n := unreducedBound_mono (by omega)
    have := lt_unreducedBound_NMAX_succ
    omega
  · intro h
    exact (unreducedBound_mono h).trans unreducedBound_NMAX

/-- Settles O1: primality by `norm_num`, maximality by a small factor of each larger number, and the
NMAX inequality because the bound is monotone and passes 2^32 - 1 between NMAX and NMAX + 1. -/
theorem constantsAreAsAudited : Obligations.ConstantsAreAsAudited :=
  ⟨rfl, MOD_prime, fun _ => not_prime_of_MOD_lt, rfl, rfl, unreducedBound_le_iff⟩

end Sys2Proof
end

section
/-! PROOFS of the family `10_state.md`: the state after reset (R29), the invariant of the registers
that every step keeps (R13, R19, R20 to R24), and the registers that sequencing writes. -/

namespace Sys2Proof

/-- R52: a byte the decoder hands out as reserved selects no row. -/
theorem ofByte?_of_decode_reserved {c : Config} {bytes rest : List Byte} {op : Byte}
    (h : decode c bytes = .reserved op rest) : Opcode.ofByte? op = none := by
  cases bytes with
  | nil => simp [decode] at h
  | cons b bs =>
    simp only [decode] at h
    split at h
    next hb =>
      obtain ⟨rfl, -⟩ := Decoded.reserved.inj h
      exact hb
    next => split at h <;> simp at h

namespace Machine

variable {i : Instr} {s t : State}

/-! ### The phase and the latch under one command -/

/-- R23: a command that completes does not enter FAULT. -/
theorem live_of_completes (hl : s.phase ≠ .fault) (h : Completes i s t) : t.phase ≠ .fault := by
  have hleaves := leaves_of_completes h
  by_cases hstart : i.opcode ∈ [.init, .seed]
  · simp [hleaves.startPhase hstart]
  by_cases hfin : i.opcode = .fin
  · simp [(hleaves.finPhase hfin).2]
  · rw [hleaves.phase (by simp_all)]
    exact hl

/-- R131: a command that ends outside FAULT completed. -/
theorem completes_of_exec_live (h : exec i s = .next t) (ht : t.phase ≠ .fault) :
    Completes i s t := by
  obtain ⟨-, ⟨c, -, rfl⟩ | hc⟩ := exec_next_cases h
  · exact absurd rfl ht
  · exact hc

/-- R21: no command clears CKV. -/
theorem ckv_of_exec (h : exec i s = .next t) (hs : s.ckv = true) : t.ckv = true := by
  obtain ⟨-, ⟨c, -, rfl⟩ | hc⟩ := exec_next_cases h
  · exact hs
  · exact (leaves_of_completes hc).ckv hs

/-- R21: no step clears CKV. -/
theorem ckv_of_step (h : step s = .next t) (hs : s.ckv = true) : t.ckv = true := by
  obtain ⟨-, ⟨op, rest, -, rfl⟩ | ⟨i, rest, -, hexec⟩⟩ := step_next_cases h
  · exact hs
  · exact ckv_of_exec hexec hs

/-- R20: CK is written by FIN and SETCK alone. -/
theorem ck_of_exec (h : exec i s = .next t) (hi : i.opcode ∉ [.fin, .setck]) : t.ck = s.ck := by
  obtain ⟨-, ⟨c, -, rfl⟩ | hc⟩ := exec_next_cases h
  · rfl
  · exact (leaves_of_completes hc).ck hi

/-- R22: SP is written by FIN, SETCK and SER alone. -/
theorem sp_of_exec (h : exec i s = .next t) (hi : i.opcode ∉ [.fin, .setck, .ser]) :
    t.sp = s.sp := by
  obtain ⟨-, ⟨c, -, rfl⟩ | hc⟩ := exec_next_cases h
  · rfl
  · exact (leaves_of_completes hc).sp hi

/-! ### The invariant of the sums -/

theorem State.reducePending_vn (s : State) : s.reducePending.vn = s.vn := by
  rw [State.reducePending_frame]

theorem State.reducePending_cfg (s : State) : s.reducePending.cfg = s.cfg := by
  rw [State.reducePending_frame]

/-- R62, R135: the halves of a legal seed are reduced sums. -/
theorem seed_halves_lt {v : Word} (h : seedLegal v = true) :
    ((lo16 v).setWidth 32).toNat < MOD ∧ ((hi16 v).setWidth 32).toNat < MOD := by
  obtain ⟨hhi, hlo⟩ := of_decide_eq_true h
  have hzext : ∀ x : BitVec 16, (x.setWidth 32).toNat = x.toNat := fun x =>
    BitVec.toNat_setWidth_of_le (by decide)
  simp only [hzext]
  exact ⟨hlo, hhi⟩

namespace State.SumInv

/-- The invariant of the sums reads neither the latch, the phase nor the fault record, nor CMD and
the trace: any write to these alone keeps it. -/
theorem of_control_write (h : s.SumInv) (ck : Option Word) (sp : Fin 5) (phase : Phase)
    (err : BitVec 16) (cmd : List Byte) (out : List OutEvent) :
    State.SumInv
      { s with ck := ck, sp := sp, phase := phase, err := err, cmd := cmd, out := out } :=
  { h with }

/-- R84: VABS with the vector path keeps the invariant: the lane joins a block with room, and the
lane that fills the block folds it. -/
theorem absorbLane (h : s.SumInv) {lane : List Byte} (hlane : lane.length = s.cfg.W)
    (hvec : s.cfg.hasVector = true) : (s.absorbLane lane).SumInv := by
  obtain ⟨hblock, hcnt⟩ := h.reducePending
  have hroom : s.reducePending.vn.toNat < s.reducePending.cfg.lanesMax := by
    rw [reducePending_vn, reducePending_cfg]
    exact h.lanes
  have hparked : Block (s.reducePending.vacc lane) :=
    hblock.vacc (by rw [reducePending_cfg, hlane]) hroom
  unfold State.absorbLane
  by_cases hfull : (s.reducePending.vacc lane).vn.toNat = (s.reducePending.vacc lane).cfg.lanesMax
  · rw [foldFull_of_full hfull]
    exact sumInv_vfold _
  · rw [foldFull_of_room hfull]
    refine hparked.sumInv hcnt (lt_of_le_of_ne hparked.lanes hfull) fun hnone => ?_
    rw [vacc_cfg, reducePending_cfg, hvec] at hnone
    exact absurd hnone (by decide)

/-- Every command that completes keeps the invariant of the sums. -/
theorem of_completes (h : s.SumInv) (hc : Completes i s t) : t.SumInv := by
  cases i with
  | nop => obtain rfl := hc; exact h
  | init => obtain rfl := hc; exact sumInv_start s (by decide) (by decide)
  | seed v =>
    obtain ⟨hv, rfl⟩ := hc
    exact sumInv_start s (seed_halves_lt hv).1 (seed_halves_lt hv).2
  | abs b =>
    obtain ⟨-, rfl⟩ := hc
    exact h.foldPending.1.acc1 h.foldPending.2 b
  | vabs lane =>
    obtain ⟨-, hlane, rfl⟩ := hc
    by_cases hvec : s.cfg.hasVector = true
    · rw [if_pos hvec]
      exact h.absorbLane hlane hvec
    · rw [if_neg hvec]
      exact h.absorbBytes (h.noVector (by simpa using hvec)) lane
  | fin => obtain ⟨-, rfl⟩ := hc; exact h.settle.of_control_write ..
  | setck v => obtain rfl := hc; exact h.of_control_write ..
  | ser => obtain ⟨v, b, -, -, rfl⟩ := hc; exact h.of_control_write ..
  | rdCk => obtain ⟨v, -, rfl⟩ := hc; exact h.of_control_write ..
  | rdS1 => obtain rfl := hc; exact h.of_control_write ..
  | rdS2 => obtain rfl := hc; exact h.of_control_write ..
  | rdStatus => obtain rfl := hc; exact h.of_control_write ..
  | rdCap => obtain rfl := hc; exact h.of_control_write ..

theorem of_exec (h : s.SumInv) (hexec : exec i s = .next t) : t.SumInv := by
  obtain ⟨-, ⟨c, -, rfl⟩ | hc⟩ := exec_next_cases hexec
  · exact h.of_control_write ..
  · exact h.of_completes hc

theorem of_step (h : s.SumInv) (hstep : step s = .next t) : t.SumInv := by
  obtain ⟨-, ⟨op, rest, -, rfl⟩ | ⟨i, rest, -, hexec⟩⟩ := step_next_cases hstep
  · exact h.of_control_write ..
  · exact State.SumInv.of_exec (s := s.advance rest) (h.of_control_write ..) hexec

/-- R16, R18: the sum of the columns, written over their indices. -/
theorem blockSum_range (h : s.SumInv) :
    s.vs.toNat = ((List.range s.cfg.W).map fun j => (s.vc.getD j 0).toNat).sum := by
  have hcolumns :
      s.vc.map BitVec.toNat = (List.range s.cfg.W).map fun j => (s.vc.getD j 0).toNat := by
    refine List.ext_getElem (by simp [h.columns]) fun j hj _ => ?_
    have hj' : j < s.vc.length := by simpa using hj
    simp [hj']
  rw [h.blockSum, hcolumns]

/-- R19 (c): a pending block leaves no stride pending. -/
theorem cnt_of_block (h : s.SumInv) (hv : 0 < s.vn.toNat) : s.cnt = 0 :=
  h.exclusive fun hv' => by simp [hv'] at hv

end State.SumInv

/-! ### The fault record -/

/-- R133: the record of a reserved opcode byte is legal. -/
theorem errLegal_illegal {op : Byte} (h : Opcode.ofByte? op = none) :
    errLegal (op ++ Cause.illegal.code) = true := by
  have hcode : (op ++ Cause.illegal.code).extractLsb' 0 8 = 1 :=
    BitVec.extractLsb'_append_eq_right
  have hop : (op ++ Cause.illegal.code).extractLsb' 8 8 = op :=
    BitVec.extractLsb'_append_eq_left
  simp [errLegal, hcode, hop, h]

/-- R132: the faults of the table that a command can raise, each with the command's opcode. -/
def commandFaults : List (Opcode × Cause) :=
  [(.abs, .phase), (.vabs, .phase), (.fin, .phase), (.seed, .seed), (.ser, .nock), (.rdCk, .nock),
    (.ser, .serovr)]

theorem mem_commandFaults_of_raises {c : Cause} (h : Raises i s c) :
    (i.opcode, c) ∈ commandFaults := by
  cases i <;> simp only [Raises] at h
  case seed => obtain ⟨rfl, -⟩ := h; simp [commandFaults, Instr.opcode]
  case abs => obtain ⟨rfl, -⟩ := h; simp [commandFaults, Instr.opcode]
  case vabs => obtain ⟨rfl, -⟩ := h; simp [commandFaults, Instr.opcode]
  case fin => obtain ⟨rfl, -⟩ := h; simp [commandFaults, Instr.opcode]
  case ser => obtain ⟨rfl, -⟩ | ⟨rfl, -⟩ := h <;> simp [commandFaults, Instr.opcode]
  case rdCk => obtain ⟨rfl, -⟩ := h; simp [commandFaults, Instr.opcode]

theorem errLegal_commandFaults :
    ∀ p ∈ commandFaults, errLegal (p.1.byte ++ p.2.code) = true := by
  decide

/-- R132: the record of a fault that a command raises is one of those listed. -/
theorem errLegal_of_raises {c : Cause} (h : Raises i s c) :
    errLegal (i.opcode.byte ++ c.code) = true :=
  errLegal_commandFaults (i.opcode, c) (mem_commandFaults_of_raises h)

/-! ### The whole invariant -/

namespace State.Inv

/-- R29: the invariant holds after reset, where a computation from (1, 0) has started. -/
theorem resetOf (c : Config) : (State.resetOf c).Inv :=
  { sumInv_start (State.resetOf c) (a := 1) (b := 0) (by decide) (by decide) with
    unlatched := fun _ => rfl
    finalised := fun h => Phase.noConfusion h
    noErr := fun _ => rfl
    faultErr := fun h => Phase.noConfusion h }

/-- The invariant does not read CMD. -/
theorem advance (h : s.Inv) (rest : List Byte) : (s.advance rest).Inv :=
  { h with }

/-- R131: a fault with a legal record keeps the invariant. -/
theorem raise (h : s.Inv) {op : Byte} {c : Cause} (hlegal : errLegal (op ++ c.code) = true) :
    (s.raise op c).Inv :=
  { h.toSumInv.of_control_write s.ck s.sp .fault (op ++ c.code) s.cmd s.out with
    unlatched := h.unlatched
    finalised := fun hdone => Phase.noConfusion hdone
    noErr := fun hlive => absurd rfl hlive
    faultErr := fun _ => hlegal }

/-- R22: SP stays 0 until a checksum is latched: FIN and SETCK latch one, SER asks for one, and the
other commands write neither CK nor SP. -/
theorem unlatched_of_completes (h : s.Inv) (hc : Completes i s t) (hck : t.ck = none) :
    t.sp = 0 := by
  have hleaves := leaves_of_completes hc
  cases i
  case fin => obtain ⟨-, rfl⟩ := hc; simp at hck
  case setck => obtain rfl := hc; simp at hck
  case ser => obtain ⟨v, b, hv, -, rfl⟩ := hc; simp [hv] at hck
  all_goals
    rw [hleaves.ck (by simp [Instr.opcode])] at hck
    rw [hleaves.sp (by simp [Instr.opcode])]
    exact h.unlatched hck

/-- R23, R96: a command that ends in DONE is FIN, which latches and leaves nothing pending, or found
PHASE = DONE and wrote none of CNT and VN; INIT, SEED, ABS and VABS end in ACTIVE. -/
theorem finalised_of_completes (h : s.Inv) (hc : Completes i s t) (hdone : t.phase = .done) :
    t.ck ≠ none ∧ t.cnt = 0 ∧ t.vn = 0 := by
  have hphase := (leaves_of_completes hc).phase
  cases i with
  | fin =>
    obtain ⟨-, rfl⟩ := hc
    exact ⟨by simp, rfl, h.toSumInv.foldPending.2⟩
  | init => obtain rfl := hc; simp at hdone
  | seed v => obtain ⟨-, rfl⟩ := hc; simp at hdone
  | abs b =>
    obtain ⟨hactive, -⟩ := hc
    rw [hphase (by simp [Instr.opcode]), hactive] at hdone
    exact Phase.noConfusion hdone
  | vabs lane =>
    obtain ⟨hactive, -⟩ := hc
    rw [hphase (by simp [Instr.opcode]), hactive] at hdone
    exact Phase.noConfusion hdone
  | setck v => obtain rfl := hc; exact ⟨by simp, (h.finalised hdone).2⟩
  | nop => obtain rfl := hc; exact h.finalised hdone
  | ser => obtain ⟨v, b, -, -, rfl⟩ := hc; exact h.finalised hdone
  | rdCk => obtain ⟨v, -, rfl⟩ := hc; exact h.finalised hdone
  | rdS1 => obtain rfl := hc; exact h.finalised hdone
  | rdS2 => obtain rfl := hc; exact h.finalised hdone
  | rdStatus => obtain rfl := hc; exact h.finalised hdone
  | rdCap => obtain rfl := hc; exact h.finalised hdone

/-- Every command that completes keeps the invariant. -/
theorem of_completes (h : s.Inv) (hl : s.phase ≠ .fault) (hc : Completes i s t) : t.Inv :=
  { h.toSumInv.of_completes hc with
    unlatched := h.unlatched_of_completes hc
    finalised := h.finalised_of_completes hc
    noErr := fun _ => by rw [(leaves_of_completes hc).err, h.noErr hl]
    faultErr := fun hfault => absurd hfault (live_of_completes hl hc) }

theorem of_exec (h : s.Inv) (hexec : exec i s = .next t) : t.Inv := by
  obtain ⟨hl, ⟨c, hraises, rfl⟩ | hc⟩ := exec_next_cases hexec
  · exact h.raise (errLegal_of_raises hraises)
  · exact h.of_completes hl hc

theorem of_step (h : s.Inv) (hstep : step s = .next t) : t.Inv := by
  obtain ⟨-, ⟨op, rest, hfetch, rfl⟩ | ⟨i, rest, -, hexec⟩⟩ := step_next_cases hstep
  · exact (h.advance rest).raise (errLegal_illegal (ofByte?_of_decode_reserved hfetch))
  · exact (h.advance rest).of_exec hexec

end State.Inv

/-! ### The obligations -/

/-- Settles O43: a step is a fault entry with a legal record or a command that completed, and each
keeps the invariant. -/
theorem stepKeepsInv : Obligations.StepKeepsInv :=
  fun _ _ hstep => ⟨fun h => h.of_step hstep, fun h => h.of_step hstep⟩

/-- Settles O36: outside FAULT the command completed, and what it leaves says the transition. -/
theorem phaseTransitions : Obligations.PhaseTransitions := by
  intro i s t h ht
  have hleaves := leaves_of_completes (completes_of_exec_live h ht)
  exact ⟨(exec_next_cases h).1, hleaves.startPhase, hleaves.finPhase, hleaves.phase⟩

/-- Settles O37: a fault entry writes no register of the latch, and a command that completes leaves
those it does not own. -/
theorem latchWrittenOnlyByFinAndSetck : Obligations.LatchWrittenOnlyByFinAndSetck :=
  ⟨fun _ _ => ckv_of_step, fun _ _ _ h => ⟨ck_of_exec h, sp_of_exec h⟩⟩

/-- R25, R29: STATUS is 0 after reset. -/
theorem State.status_resetOf (c : Config) : (State.resetOf c).status = 0 := by
  have hfields : (State.resetOf c).status =
      Phase.active.code.setWidth 32 ||| (BitVec.ofBool false).setWidth 32 <<< 2
        ||| BitVec.ofNat 32 (0 : Fin 5).val <<< 3 ||| (0 : BitVec 4).setWidth 32 <<< 8
        ||| (0 : BitVec 16).setWidth 32 <<< 16 := rfl
  rw [hfields]
  decide

/-- Settles O40: each register is the one of `State.resetOf`, and RD.CK raises ERR_NOCK there. -/
theorem resetRestoresEveryRegister : Obligations.ResetRestoresEveryRegister := by
  intro s
  have hcolumns : s.hostReset.vc = List.replicate s.cfg.W 0 := rfl
  have hrdCk : exec .rdCk s.hostReset = .next (s.hostReset.raise Opcode.rdCk.byte .nock) :=
    exec_of_raises (by simp [State.hostReset, State.resetOf]) ⟨rfl, rfl⟩
  refine ⟨rfl, rfl, rfl, rfl, rfl, rfl, ?_, ?_, rfl, rfl, rfl, rfl, rfl,
    State.status_resetOf _, rfl, rfl, hrdCk, fun _ => rfl, rfl⟩
  · rw [hcolumns, List.length_replicate]
  · rw [hcolumns]
    exact fun _ hc => List.eq_of_mem_replicate hc

/-- Settles O42: reset starts a computation from (1, 0), with nothing latched and no fault. -/
theorem invAtReset : Obligations.InvAtReset := State.Inv.resetOf

/-- Settles O44: each part is a field of the invariant or a lemma about it, read in the words of the
rules. -/
theorem invGivesVectorInvariants : Obligations.InvGivesVectorInvariants := by
  intro s h
  have hlanes : s.vn.toNat < 5552 / s.cfg.W := h.lanes
  exact ⟨h.empty, h.blockSum_range, h.cnt_of_block, fun hv => h.reduced (h.cnt_of_block hv),
    by omega, h.noVector, h.reduced⟩

end Machine

end Sys2Proof
end

section
/-! PROOFS of the family `20_memory.md`: a step takes exactly one packet from CMD (R31), what each
command puts on the output streams (R33, R34), and the STAT port (R35). -/

namespace Sys2Proof

/-! ### The decoder at the head of a byte sequence -/

section Decode

variable {c : Config} {bytes rest : List Byte} {op : Byte} {i : Instr}

/-- R51: the packet of a well-formed instruction has the length its first byte announces. -/
theorem encode_length (h : i.wf c = true) :
    (encode i).length = packetLength c i.opcode.byte := by
  obtain ⟨op, hhead, -, hlength⟩ := Laws.Packet.of_any i
  obtain rfl : i.opcode.byte = op := Option.some.inj hhead
  exact hlength c h

/-- R51: the packet of a well-formed instruction decodes to it, whatever stands behind it. -/
theorem decode_encode_append (h : i.wf c = true) (rest : List Byte) :
    decode c (encode i ++ rest) = .packet i rest := by
  simp [encode, decode, ← Instr.payload_length h]

/-- R50, R51: what decodes to an instruction is the packet of that instruction, which is
well-formed, followed by the bytes left over. -/
theorem wf_and_eq_of_decode_packet (h : decode c bytes = .packet i rest) :
    i.wf c = true ∧ bytes = encode i ++ rest := by
  cases bytes with
  | nil => simp [decode] at h
  | cons op bs =>
    simp only [decode] at h
    split at h
    next => simp at h
    next o ho =>
      split at h
      next => simp at h
      next hlen =>
        obtain ⟨rfl, rfl⟩ := Decoded.packet.inj h
        have hpayload : (bs.take (o.format.payload c)).length = o.format.payload c :=
          List.length_take_of_le (by omega)
        refine ⟨Opcode.wf_build hpayload, ?_⟩
        rw [encode, Opcode.opcode_build, Opcode.payload_build hpayload, Opcode.byte_of_ofByte? ho,
          List.cons_append, List.take_append_drop]

/-- R50, R51: the decoder finds an instruction exactly at the head of its packet. -/
theorem decode_packet_iff :
    decode c bytes = .packet i rest ↔ i.wf c = true ∧ bytes = encode i ++ rest :=
  ⟨wf_and_eq_of_decode_packet, by rintro ⟨h, rfl⟩; exact decode_encode_append h rest⟩

/-- R52: the decoder finds a reserved packet exactly at a byte that selects no row. -/
theorem decode_reserved_iff :
    decode c bytes = .reserved op rest ↔ bytes = op :: rest ∧ Opcode.ofByte? op = none := by
  constructor
  · intro h
    refine ⟨?_, ofByte?_of_decode_reserved h⟩
    cases bytes with
    | nil => simp [decode] at h
    | cons b bs =>
      simp only [decode] at h
      split at h
      next =>
        obtain ⟨rfl, rfl⟩ := Decoded.reserved.inj h
        rfl
      next => split at h <;> simp at h
  · rintro ⟨rfl, h⟩
    simp [decode, h]

/-- R31: a proper nonempty beginning of a packet holds the decoder. -/
theorem decode_held_of_truncated {p q : List Byte} (h : i.wf c = true) (hp : p ≠ []) (hq : q ≠ [])
    (hpq : p ++ q = encode i) : decode c p = .held := by
  obtain ⟨op, bs, rfl⟩ := List.exists_cons_of_ne_nil hp
  obtain ⟨rfl, hpayload⟩ := List.cons.inj hpq
  have hshort : bs.length < i.opcode.format.payload c := by
    have hlen := congrArg List.length hpayload
    have hrest := List.length_pos_of_ne_nil hq
    rw [List.append_eq, List.length_append, Instr.payload_length h] at hlen
    omega
  simp [decode, hshort]

/-- R52: a reserved byte is a packet by itself. -/
theorem packetLength_reserved (h : Opcode.ofByte? op = none) : packetLength c op = 1 := by
  simp [packetLength, h]

end Decode

namespace Machine

variable {i : Instr} {s t : State}

/-! ### A step by what stands at the head of CMD -/

/-- R130: a step at a packet executes its instruction with the packet taken. -/
theorem step_of_packet {rest : List Byte} (hl : s.phase ≠ .fault)
    (hf : s.fetch = .packet i rest) : step s = exec i (s.advance rest) := by
  rw [step, State.cycle, State.whenLive_of_live hl, hf]

/-- R133: a step at a reserved byte takes it and raises ERR_ILLEGAL. -/
theorem step_of_reserved {op : Byte} {rest : List Byte} (hl : s.phase ≠ .fault)
    (hf : s.fetch = .reserved op rest) : step s = .next ((s.advance rest).raise op .illegal) := by
  rw [step, State.cycle, State.whenLive_of_live hl, hf]

/-- R31: there is no step at a packet cut short. -/
theorem step_of_held (hl : s.phase ≠ .fault) (hf : s.fetch = .held) : step s = .fault .held := by
  rw [step, State.cycle, State.whenLive_of_live hl, hf]

/-- R31: no command takes a byte of CMD beyond its own packet. -/
theorem cmd_of_exec (h : exec i s = .next t) : t.cmd = s.cmd := by
  obtain ⟨-, ⟨c, -, rfl⟩ | hc⟩ := exec_next_cases h
  · rfl
  · exact (leaves_of_completes hc).cmd

/-- R31, R51: the packet a step takes from CMD, by its first byte and its payload: it has the length
that byte announces, the step leaves the bytes behind it, and it does the same with any others
there. -/
structure TakesPacket (s t : State) (op : Byte) (payload rest : List Byte) : Prop where
  cmd : s.cmd = op :: payload ++ rest
  length : (op :: payload).length = packetLength s.cfg op
  left : t.cmd = rest
  step : ∀ tail, step (s.advance (op :: payload ++ tail)) = .next (t.advance tail)

/-- R31, R133: a step that raises ERR_ILLEGAL takes the reserved byte alone. -/
theorem takesPacket_of_reserved {op : Byte} {rest : List Byte} (hl : s.phase ≠ .fault)
    (hf : s.fetch = .reserved op rest) :
    TakesPacket s ((s.advance rest).raise op .illegal) op [] rest := by
  obtain ⟨hcmd, hop⟩ := decode_reserved_iff.mp hf
  exact ⟨hcmd, (packetLength_reserved hop).symm, rfl,
    fun tail => step_of_reserved (s := s.advance (op :: tail)) hl
      (decode_reserved_iff.mpr ⟨rfl, hop⟩)⟩

/-- R31: a step that executes an instruction takes its packet. -/
theorem takesPacket_of_exec {rest : List Byte} (hl : s.phase ≠ .fault)
    (hf : s.fetch = .packet i rest) (h : exec i (s.advance rest) = .next t) :
    TakesPacket s t i.opcode.byte i.payload rest := by
  obtain ⟨hwf, hcmd⟩ := decode_packet_iff.mp hf
  refine ⟨hcmd, encode_length hwf, cmd_of_exec h, fun tail => ?_⟩
  have hstep : step (s.advance (encode i ++ tail)) = exec i (s.advance tail) :=
    step_of_packet (s := s.advance (encode i ++ tail)) hl (decode_encode_append hwf tail)
  exact hstep.trans (exec_advance (s := s.advance rest) tail h)

/-- R31: every step takes one packet. -/
theorem takesPacket_of_step (h : step s = .next t) :
    ∃ op payload rest, TakesPacket s t op payload rest := by
  obtain ⟨hl, ⟨op, rest, hf, rfl⟩ | ⟨i, rest, hf, hexec⟩⟩ := step_next_cases h
  · exact ⟨op, [], rest, takesPacket_of_reserved hl hf⟩
  · exact ⟨_, _, rest, takesPacket_of_exec hl hf hexec⟩

/-! ### The output trace under one command -/

/-- R33, R98: SER that completes puts one byte on TX. -/
theorem out_of_completes_ser (h : Completes .ser s t) : ∃ b, t.out = s.out ++ [.tx b] := by
  obtain ⟨_, b, -, -, rfl⟩ := h
  exact ⟨b, rfl⟩

/-- R34, R105: a read that completes puts one word on RSP. -/
theorem out_of_completes_read (h : Completes i s t)
    (hi : i.opcode ∈ [.rdCk, .rdS1, .rdS2, .rdStatus, .rdCap]) :
    ∃ w, t.out = s.out ++ [.rsp w] := by
  cases i <;> simp [Instr.opcode] at hi
  case rdCk => obtain ⟨v, -, rfl⟩ := h; exact ⟨v, rfl⟩
  case rdS1 => obtain rfl := h; exact ⟨s.s1, rfl⟩
  case rdS2 => obtain rfl := h; exact ⟨s.s2, rfl⟩
  case rdStatus => obtain rfl := h; exact ⟨s.status, rfl⟩
  case rdCap => obtain rfl := h; exact ⟨s.cfg.cap, rfl⟩

/-- R33, R34: any other command that completes emits nothing. -/
theorem out_of_completes_silent (h : Completes i s t) (hser : i ≠ .ser)
    (hi : i.opcode ∉ [.rdCk, .rdS1, .rdS2, .rdStatus, .rdCap]) : t.out = s.out := by
  cases i <;> simp [Instr.opcode] at hser hi
  case nop => obtain rfl := h; rfl
  case init => obtain rfl := h; rfl
  case seed => obtain ⟨-, rfl⟩ := h; rfl
  case setck => obtain rfl := h; rfl
  case abs =>
    obtain ⟨-, rfl⟩ := h
    rw [State.acc1_out, State.foldPending_frame]
  case vabs =>
    obtain ⟨-, -, rfl⟩ := h
    split
    · rw [State.absorbLane_frame]
    · rw [State.absorbBytes_frame]
  case fin =>
    obtain ⟨-, rfl⟩ := h
    rw [State.settle, State.foldPending_frame]
    rfl

/-- R131: a command that enters FAULT emits nothing. -/
theorem out_of_exec_fault (h : exec i s = .next t) (ht : t.phase = .fault) : t.out = s.out := by
  obtain ⟨hl, ⟨c, -, rfl⟩ | hc⟩ := exec_next_cases h
  · rfl
  · exact absurd ht (live_of_completes hl hc)

/-! ### The STAT port -/

/-- R35: the layout of STAT, PHASE in bits 1:0, CKV in bit 2 and ERR in bits 18:3. -/
theorem State.stat_toNat (s : State) :
    s.stat.toNat = s.phase.code.toNat + 4 * (if s.ckv then 1 else 0) + 8 * s.err.toNat := by
  have hphase := s.phase.code.isLt
  have hckv := (BitVec.ofBool s.ckv).isLt
  rw [State.stat, BitVec.toNat_append, ← Nat.shiftLeft_add_eq_or_of_lt hphase,
    BitVec.toNat_append, ← Nat.shiftLeft_add_eq_or_of_lt hckv, Nat.shiftLeft_eq, Nat.shiftLeft_eq,
    BitVec.toNat_ofBool, Bool.toNat, Bool.cond_eq_ite]
  omega

/-- R35: STAT is a view of PHASE, CKV and ERR, none of which presenting bytes changes. -/
@[simp] theorem State.stat_present (bytes : List Byte) (s : State) :
    (s.present bytes).stat = s.stat := rfl

/-! ### The obligations -/

/-- Settles O7: the beginning of a packet holds the decoder; with the missing bytes behind it CMD
begins with the whole packet, which decodes. -/
theorem truncatedPacketHolds : Obligations.TruncatedPacketHolds := by
  rintro s i p q rest hl hwf hp hq hpq rfl
  refine ⟨step_of_held hl (decode_held_of_truncated hwf hp hq hpq), ?_⟩
  have hcmd : (s.present (q ++ rest)).cmd = encode i ++ rest := by
    rw [State.present_cmd, ← List.append_assoc, hpq]
  exact step_of_packet (s := s.present (q ++ rest)) hl (decode_packet_iff.mpr ⟨hwf, hcmd⟩)

/-- Settles O11: a step takes the packet at the head of CMD, whose length its first byte
announces. -/
theorem stepTakesExactlyOnePacket : Obligations.StepTakesExactlyOnePacket := by
  intro s t h
  obtain ⟨op, payload, rest, htakes⟩ := takesPacket_of_step h
  refine ⟨op, payload ++ rest, htakes.cmd, ?_, ?_, fun tail => ?_⟩
  · simp [htakes.cmd, ← htakes.length]
  · rw [htakes.left, htakes.cmd, List.drop_left' htakes.length]
  · rw [htakes.cmd, List.take_left' htakes.length]
    exact htakes.step tail

/-- Settles O38: a fault entry emits nothing, and what a command that completes emits depends on
whether it is SER, a read or another command. -/
theorem outputsOnlyFromSerAndReads : Obligations.OutputsOnlyFromSerAndReads := by
  intro i s t h
  refine ⟨out_of_exec_fault h, fun ht => ?_⟩
  have hc := completes_of_exec_live h ht
  split
  next hser =>
    subst hser
    exact out_of_completes_ser hc
  next hser =>
    split
    next hread => exact out_of_completes_read hc hread
    next hread => exact out_of_completes_silent hc hser hread

/-- Settles O41: the layout of STAT with the code of each phase. -/
theorem statPortShowsRecord : Obligations.StatPortShowsRecord := by
  intro s
  refine ⟨?_, fun bytes => s.stat_present bytes⟩
  rw [s.stat_toNat]
  cases s.phase <;> rfl

end Machine

end Sys2Proof
end

section
/-! PROOFS of the family `30_encoding.md`: the opcode map and the packets (R46 to R52), the
pseudo-instructions (R55, R56), and what the opcode alone decides (R58). -/

namespace Sys2Proof

/-! ### The opcode map -/

section OpcodeMap

variable {c : Config} {op : Byte} {o : Opcode}

/-- R50: the rows of the opcode map, in its order. -/
def Opcode.all : List Opcode :=
  [.nop, .init, .seed, .setck, .abs, .vabs, .fin, .ser, .rdCk, .rdS1, .rdS2, .rdStatus, .rdCap]

theorem Opcode.mem_all (o : Opcode) : o ∈ Opcode.all := by
  cases o <;> decide

/-- R50: a byte selects a row exactly when it is the opcode byte of that row. -/
theorem Opcode.ofByte?_eq_some_iff : Opcode.ofByte? op = some o ↔ op = o.byte :=
  ⟨Opcode.byte_of_ofByte?, by rintro rfl; exact Opcode.ofByte?_byte o⟩

/-- R52: a byte is reserved exactly when it is none of the thirteen opcode bytes. -/
theorem Opcode.ofByte?_eq_none_iff :
    Opcode.ofByte? op = none ↔ op ∉ Opcode.all.map Opcode.byte := by
  rw [Option.eq_none_iff_forall_ne_some]
  simp only [ne_eq, Opcode.ofByte?_eq_some_iff, List.mem_map, not_exists, not_and]
  exact ⟨fun h o _ ho => h o ho.symm, fun h o ho => h o (Opcode.mem_all o) ho.symm⟩

/-- R51: the packet length of each row. -/
theorem packetLength_opcode (c : Config) (o : Opcode) :
    packetLength c o.byte =
      if o.byte = 0x10 then 2 else if o.byte = 0x02 ∨ o.byte = 0x03 then 5
      else if o.byte = 0x11 then 1 + c.W else 1 := by
  rw [packetLength_byte]
  cases o <;> rfl

/-- R51: the packet length by the first byte, which is the opcode byte of a row or reserved. -/
theorem packetLength_eq (c : Config) (op : Byte) :
    packetLength c op =
      if op = 0x10 then 2 else if op = 0x02 ∨ op = 0x03 then 5
      else if op = 0x11 then 1 + c.W else 1 := by
  cases ho : Opcode.ofByte? op with
  | some o =>
    obtain rfl := Opcode.byte_of_ofByte? ho
    exact packetLength_opcode c o
  | none =>
    have hne (o : Opcode) : op ≠ o.byte := by
      rintro rfl
      simp at ho
    have habs : op ≠ 0x10 := hne .abs
    have himm : ¬ (op = 0x02 ∨ op = 0x03) := not_or.mpr ⟨hne .seed, hne .setck⟩
    have hvabs : op ≠ 0x11 := hne .vabs
    rw [packetLength_reserved ho, if_neg habs, if_neg himm, if_neg hvabs]

/-- All bytes, in numeric order. -/
def allBytes : List Byte := (List.range 256).map (BitVec.ofNat 8)

theorem allBytes_nodup : allBytes.Nodup := by
  refine List.Nodup.map_on (fun x hx y hy h => ?_) List.nodup_range
  have hxy := congrArg BitVec.toNat h
  rw [BitVec.toNat_ofNat, BitVec.toNat_ofNat] at hxy
  rw [List.mem_range] at hx hy
  omega

theorem mem_allBytes (op : Byte) : op ∈ allBytes :=
  List.mem_map.mpr ⟨op.toNat, List.mem_range.mpr op.isLt, BitVec.ofNat_toNat 8 op⟩

/-- R50: the bytes that are not reserved are the thirteen opcode bytes. -/
theorem assigned_bytes_perm :
    (allBytes.filter fun op => !(Opcode.ofByte? op == none)).Perm
      (Opcode.all.map Opcode.byte) := by
  refine (List.perm_ext_iff_of_nodup (allBytes_nodup.filter _) (by decide)).mpr fun op => ?_
  rw [List.mem_filter, ← not_iff_not, ← Opcode.ofByte?_eq_none_iff]
  simp [mem_allBytes]

/-- R52: thirteen of the 256 bytes select a row, so 243 are reserved. -/
theorem reserved_bytes_count :
    (allBytes.filter fun op => Opcode.ofByte? op == none).length = 243 := by
  have hall : allBytes.length = 256 := by rw [allBytes, List.length_map, List.length_range]
  have hassigned := assigned_bytes_perm.length_eq
  have hrows : (Opcode.all.map Opcode.byte).length = 13 := rfl
  have hsplit := allBytes.length_eq_length_filter_add fun op => Opcode.ofByte? op == none
  omega

end OpcodeMap

/-! ### The decoder where it finds no packet -/

section Decode

variable {c : Config} {bytes : List Byte}

/-- R31: the decoder finds no byte only in the empty byte sequence. -/
theorem eq_nil_of_decode_empty (h : decode c bytes = .empty) : bytes = [] := by
  cases bytes with
  | nil => rfl
  | cons op bs =>
    simp only [decode] at h
    split at h
    next => simp at h
    next => split at h <;> simp at h

/-- R31, R51: where the decoder holds, the bytes are fewer than the first one announces. -/
theorem short_of_decode_held (h : decode c bytes = .held) :
    ∃ op rest, bytes = op :: rest ∧ bytes.length < packetLength c op := by
  cases bytes with
  | nil => simp [decode] at h
  | cons op bs =>
    refine ⟨op, bs, rfl, ?_⟩
    simp only [decode] at h
    split at h
    next => simp at h
    next o ho =>
      split at h
      next hshort =>
        rw [Opcode.byte_of_ofByte? ho, packetLength_byte, List.length_cons]
        omega
      next => simp at h

/-- R49: the lane of a well-formed VABS. -/
theorem lane_length_of_wf {lane : List Byte} (h : (Instr.vabs lane).wf c = true) :
    lane.length = c.W :=
  beq_iff_eq.mp h

/-- R49: a VABS that decodes carries a whole lane. -/
theorem lane_length_of_decode {lane rest : List Byte}
    (h : decode c bytes = .packet (.vabs lane) rest) : lane.length = c.W :=
  lane_length_of_wf (wf_and_eq_of_decode_packet h).1

end Decode

/-! ### The pseudo-instructions DATA and VDATA -/

section Pseudo

open Machine Assembler

@[simp] theorem message_cons (i : Instr) (is : List Instr) :
    message (i :: is) = absorbed i ++ message is := rfl

/-- R55: DATA carries its bytes. -/
theorem message_data (bytes : List Byte) : message (data bytes) = bytes := by
  simp [message, data, List.flatMap_map, absorbed]

/-- R55: DATA is message commands, each a packet of any engine. -/
theorem absorbs_and_wf_of_mem_data {c : Config} {i : Instr} {bytes : List Byte}
    (h : i ∈ data bytes) : absorbs i = true ∧ i.wf c = true := by
  obtain ⟨b, -, rfl⟩ := List.mem_map.mp h
  exact ⟨rfl, rfl⟩

theorem map_opcode_data (bytes : List Byte) :
    (data bytes).map Instr.opcode = List.replicate bytes.length .abs := by
  simp only [data, List.map_map]
  exact List.map_const ..

/-- R56: lanes cut from the front and the bytes behind them are the bytes. -/
theorem message_lanesThenData (w n : Nat) (bytes : List Byte) :
    message (lanesThenData w n bytes) = bytes := by
  induction n generalizing bytes with
  | zero => exact message_data bytes
  | succ n ih =>
    rw [lanesThenData, message_cons, ih]
    exact List.take_append_drop w bytes

/-- R49, R56: with bytes for `n` lanes every VABS has a whole lane. -/
theorem absorbs_and_wf_of_mem_lanesThenData {c : Config} {i : Instr} {n : Nat} {bytes : List Byte}
    (hn : n * c.W ≤ bytes.length) (h : i ∈ lanesThenData c.W n bytes) :
    absorbs i = true ∧ i.wf c = true := by
  induction n generalizing bytes with
  | zero => exact absorbs_and_wf_of_mem_data h
  | succ n ih =>
    rw [Nat.succ_mul] at hn
    obtain rfl | h := List.mem_cons.mp h
    · have hlane : (bytes.take c.W).length = c.W := List.length_take_of_le (by omega)
      exact ⟨rfl, beq_iff_eq.mpr hlane⟩
    · exact ih (by rw [List.length_drop]; omega) h

/-- R56: the opcodes of `n` lanes and the bytes behind them. -/
theorem map_opcode_lanesThenData (w n : Nat) (bytes : List Byte) :
    (lanesThenData w n bytes).map Instr.opcode =
      List.replicate n .vabs ++ List.replicate (bytes.length - n * w) .abs := by
  induction n generalizing bytes with
  | zero => simpa [lanesThenData] using map_opcode_data bytes
  | succ n ih =>
    have hleft : bytes.length - w - n * w = bytes.length - (n + 1) * w := by
      rw [Nat.succ_mul]
      omega
    rw [lanesThenData, List.map_cons, ih, List.length_drop, hleft]
    rfl

end Pseudo

namespace Machine

variable {i i' : Instr} {s s' t : State}

/-! ### Every well-formed command has an answer -/

/-- R130, R132: outside FAULT a well-formed command raises one of its faults or completes. -/
theorem raises_or_completes (hl : s.phase ≠ .fault) (hwf : i.wf s.cfg = true) :
    (∃ c, Raises i s c) ∨ ∃ t, Completes i s t := by
  have hphase : s.phase = .active ∨ s.phase = .done := by
    cases hp : s.phase <;> simp_all
  cases i with
  | nop => exact .inr ⟨_, rfl⟩
  | init => exact .inr ⟨_, rfl⟩
  | seed v =>
    cases hv : seedLegal v with
    | true => exact .inr ⟨_, hv, rfl⟩
    | false => exact .inl ⟨.seed, rfl, hv⟩
  | setck v => exact .inr ⟨_, rfl⟩
  | abs b =>
    obtain ha | hd := hphase
    · exact .inr ⟨_, ha, rfl⟩
    · exact .inl ⟨.phase, rfl, hd⟩
  | vabs lane =>
    have hlane : lane.length = s.cfg.W := lane_length_of_wf hwf
    obtain ha | hd := hphase
    · exact .inr ⟨_, ha, hlane, rfl⟩
    · exact .inl ⟨.phase, rfl, hd, hlane⟩
  | fin =>
    obtain ha | hd := hphase
    · exact .inr ⟨_, ha, rfl⟩
    · exact .inl ⟨.phase, rfl, hd⟩
  | ser =>
    cases hck : s.ck with
    | none => exact .inl ⟨.nock, .inl ⟨rfl, hck⟩⟩
    | some v =>
      cases hb : (be32 v)[s.sp.val]? with
      | none => exact .inl ⟨.serovr, .inr ⟨rfl, v, hck, hb⟩⟩
      | some b => exact .inr ⟨_, v, b, hck, hb, rfl⟩
  | rdCk =>
    cases hck : s.ck with
    | none => exact .inl ⟨.nock, rfl, hck⟩
    | some v => exact .inr ⟨_, v, hck, rfl⟩
  | rdS1 => exact .inr ⟨_, rfl⟩
  | rdS2 => exact .inr ⟨_, rfl⟩
  | rdStatus => exact .inr ⟨_, rfl⟩
  | rdCap => exact .inr ⟨_, rfl⟩

/-- R130: outside FAULT every well-formed command answers a next state. -/
theorem exec_next_of_wf (hl : s.phase ≠ .fault) (hwf : i.wf s.cfg = true) :
    ∃ t, exec i s = .next t := by
  obtain ⟨c, hr⟩ | ⟨t, hc⟩ := raises_or_completes hl hwf
  · exact ⟨_, exec_of_raises hl hr⟩
  · exact ⟨t, exec_of_completes hl hc⟩

/-- R146: there is no step at an empty stream. -/
theorem step_of_empty (hl : s.phase ≠ .fault) (hf : s.fetch = .empty) :
    step s = .fault .streamEnded := by
  rw [step, State.cycle, State.whenLive_of_live hl, hf]

/-- R130: there is no step in FAULT. -/
theorem step_of_fault (h : s.phase = .fault) : step s = .fault .phaseFault :=
  State.whenLive_of_fault h

/-- R130: a step that takes an instruction executes a well-formed one, so no step is refused. -/
theorem step_ne_refused (s : State) (r : Refusal) : step s ≠ .refused r := by
  by_cases hl : s.phase = .fault
  · simp [step_of_fault hl]
  cases hf : s.fetch with
  | empty => simp [step_of_empty hl hf]
  | held => simp [step_of_held hl hf]
  | reserved op rest => simp [step_of_reserved hl hf]
  | packet i rest =>
    have hwf : i.wf (s.advance rest).cfg = true := (wf_and_eq_of_decode_packet hf).1
    obtain ⟨t, ht⟩ := exec_next_of_wf (s := s.advance rest) hl hwf
    simp [step_of_packet hl hf, ht]

/-- R49: a VABS whose lane is not `W` bytes is refused by name. -/
theorem exec_vabs_of_length_ne {lane : List Byte} (h : lane.length ≠ s.cfg.W) :
    exec (.vabs lane) s = .refused .laneLength :=
  if_neg h

/-! ### The control state under one command -/

/-- R98, R137: whether `BE32(CK)` has a byte at SP does not depend on CK. -/
theorem be32_getElem?_eq_none_congr (v v' : Word) (n : Nat) :
    (be32 v)[n]? = none ↔ (be32 v')[n]? = none := by
  rw [List.getElem?_eq_none_iff, List.getElem?_eq_none_iff, be32_length, be32_length]

/-- R50: an instruction of the opcode of `i` is built by that opcode from its own payload. -/
theorem eq_build_of_opcode_eq (h : i.opcode = i'.opcode) : ∃ P, i' = i.opcode.build P :=
  ⟨i'.payload, by rw [h, Instr.build_payload]⟩

namespace State.SameControl

theorem raise (h : s.SameControl s') (op : Byte) (c : Cause) :
    (s.raise op c).SameControl (s'.raise op c) := by
  obtain ⟨hcfg, hcnt, hvn, hckv, hsp, -, -⟩ := h
  exact ⟨hcfg, hcnt, hvn, hckv, hsp, rfl, rfl⟩

theorem emit (h : s.SameControl s') (e e' : OutEvent) : (s.emit e).SameControl (s'.emit e') := h

theorem start (h : s.SameControl s') (a b a' b' : Word) :
    (s.start a b).SameControl (s'.start a' b') := by
  obtain ⟨hcfg, -, -, hckv, hsp, -, herr⟩ := h
  exact ⟨hcfg, rfl, rfl, hckv, hsp, rfl, herr⟩

theorem latch (h : s.SameControl s') (v v' : Word) : (s.latch v).SameControl (s'.latch v') := by
  obtain ⟨hcfg, hcnt, hvn, -, -, hphase, herr⟩ := h
  exact ⟨hcfg, hcnt, hvn, rfl, rfl, hphase, herr⟩

theorem with_phase (h : s.SameControl s') (p : Phase) :
    State.SameControl { s with phase := p } { s' with phase := p } := by
  obtain ⟨hcfg, hcnt, hvn, hckv, hsp, -, herr⟩ := h
  exact ⟨hcfg, hcnt, hvn, hckv, hsp, rfl, herr⟩

theorem with_sp (h : s.SameControl s') :
    State.SameControl { s with sp := s.sp + 1 } { s' with sp := s'.sp + 1 } := by
  obtain ⟨hcfg, hcnt, hvn, hckv, hsp, hphase, herr⟩ := h
  exact ⟨hcfg, hcnt, hvn, hckv, congrArg (· + 1) hsp, hphase, herr⟩

theorem reduce (h : s.SameControl s') : s.reduce.SameControl s'.reduce := by
  obtain ⟨hcfg, -, hvn, hckv, hsp, hphase, herr⟩ := h
  exact ⟨hcfg, rfl, hvn, hckv, hsp, hphase, herr⟩

theorem vfold (h : s.SameControl s') : s.vfold.SameControl s'.vfold := by
  obtain ⟨hcfg, -, -, hckv, hsp, hphase, herr⟩ := h
  exact ⟨hcfg, rfl, rfl, hckv, hsp, hphase, herr⟩

theorem vacc (h : s.SameControl s') (lane lane' : List Byte) :
    (s.vacc lane).SameControl (s'.vacc lane') := by
  obtain ⟨hcfg, hcnt, hvn, hckv, hsp, hphase, herr⟩ := h
  exact ⟨hcfg, hcnt, congrArg (· + 1) hvn, hckv, hsp, hphase, herr⟩

/-- R71: ACC1 reduces by CNT alone, whatever its byte. -/
theorem acc1 (h : s.SameControl s') (b b' : Byte) : (s.acc1 b).SameControl (s'.acc1 b') := by
  simpa [State.SameControl, State.ckv, State.acc1_cnt] using h

/-- R72: whether a block is folded depends on VN alone. -/
theorem foldPending (h : s.SameControl s') : s.foldPending.SameControl s'.foldPending := by
  obtain ⟨-, -, hvn, -⟩ := id h
  by_cases hv : s.vn = 0
  · rw [foldPending_of_none hv, foldPending_of_none (hvn ▸ hv)]
    exact h
  · rw [foldPending_of_block hv, foldPending_of_block (hvn ▸ hv)]
    exact h.vfold

/-- R84: whether a stride is reduced depends on CNT alone. -/
theorem reducePending (h : s.SameControl s') : s.reducePending.SameControl s'.reducePending := by
  obtain ⟨-, hcnt, -⟩ := id h
  by_cases hc : s.cnt = 0
  · rw [reducePending_of_none hc, reducePending_of_none (hcnt ▸ hc)]
    exact h
  · rw [reducePending_of_stride hc, reducePending_of_stride (hcnt ▸ hc)]
    exact h.reduce

/-- R84: whether a block is full depends on VN and the configuration. -/
theorem foldFull (h : s.SameControl s') : s.foldFull.SameControl s'.foldFull := by
  obtain ⟨hcfg, -, hvn, -⟩ := id h
  by_cases hfull : s.vn.toNat = s.cfg.lanesMax
  · rw [foldFull_of_full hfull, foldFull_of_full (hvn ▸ hcfg ▸ hfull)]
    exact h.vfold
  · rw [foldFull_of_room hfull, foldFull_of_room (hvn ▸ hcfg ▸ hfull)]
    exact h

theorem settle (h : s.SameControl s') : s.settle.SameControl s'.settle := h.foldPending.reduce

theorem absorbLane (h : s.SameControl s') (lane lane' : List Byte) :
    (s.absorbLane lane).SameControl (s'.absorbLane lane') :=
  (h.reducePending.vacc lane lane').foldFull

/-- R85: the fall-back moves CNT by the length of the lane. -/
theorem absorbBytes (h : s.SameControl s') {lane lane' : List Byte}
    (hlen : lane.length = lane'.length) :
    (s.absorbBytes lane).SameControl (s'.absorbBytes lane') := by
  obtain ⟨hcfg, hcnt, hvn, hckv, hsp, hphase, herr⟩ := h
  have hcnt' : (s.absorbBytes lane).cnt = (s'.absorbBytes lane').cnt := by
    apply BitVec.eq_of_toNat_eq
    rw [absorbBytes_cnt, absorbBytes_cnt, hcnt, hlen]
  rw [absorbBytes_frame lane s, absorbBytes_frame lane' s']
  exact ⟨hcfg, hcnt', hvn, hckv, hsp, hphase, herr⟩

theorem live (h : s.SameControl s') (hl : s.phase ≠ .fault) : s'.phase ≠ .fault := by
  obtain ⟨-, -, -, -, -, hphase, -⟩ := h
  rwa [← hphase]

theorem ck_eq_none (h : s.SameControl s') (hck : s.ck = none) : s'.ck = none := by
  obtain ⟨-, -, -, hckv, -⟩ := h
  simpa [State.ckv, hck] using hckv.symm

theorem ck_eq_some (h : s.SameControl s') {v : Word} (hck : s.ck = some v) :
    ∃ v', s'.ck = some v' := by
  obtain ⟨-, -, -, hckv, -⟩ := h
  exact Option.isSome_iff_exists.mp (by simpa [State.ckv, hck] using hckv.symm)

/-- R58: two commands of one opcode raise the same faults in states of one control state. -/
theorem raises (h : s.SameControl s') (hop : i.opcode = i'.opcode) (hseed : i.opcode ≠ .seed)
    (hwf' : i'.wf s'.cfg = true) {c : Cause} (hr : Raises i s c) : Raises i' s' c := by
  obtain ⟨-, -, -, -, hsp, hphase, -⟩ := id h
  obtain ⟨P, rfl⟩ := eq_build_of_opcode_eq hop
  cases i <;> simp only [Raises] at hr
  case seed v => exact absurd rfl hseed
  case abs b => obtain ⟨rfl, hd⟩ := hr; exact ⟨rfl, hphase ▸ hd⟩
  case vabs lane => obtain ⟨rfl, hd, -⟩ := hr; exact ⟨rfl, hphase ▸ hd, lane_length_of_wf hwf'⟩
  case fin => obtain ⟨rfl, hd⟩ := hr; exact ⟨rfl, hphase ▸ hd⟩
  case ser =>
    obtain ⟨rfl, hck⟩ | ⟨rfl, v, hck, hb⟩ := hr
    · exact .inl ⟨rfl, h.ck_eq_none hck⟩
    · obtain ⟨v', hck'⟩ := h.ck_eq_some hck
      exact .inr ⟨rfl, v', hck', hsp ▸ (be32_getElem?_eq_none_congr v v' _).mp hb⟩
  case rdCk => obtain ⟨rfl, hck⟩ := hr; exact ⟨rfl, h.ck_eq_none hck⟩

/-- R58: two commands of one opcode complete from states of one control state to such states. -/
theorem completes (h : s.SameControl s') (hop : i.opcode = i'.opcode) (hseed : i.opcode ≠ .seed)
    (hwf' : i'.wf s'.cfg = true) (hc : Completes i s t) :
    ∃ t', Completes i' s' t' ∧ t.SameControl t' := by
  obtain ⟨hcfg, -, -, -, hsp, hphase, -⟩ := id h
  obtain ⟨P, rfl⟩ := eq_build_of_opcode_eq hop
  cases i with
  | nop => obtain rfl := hc; exact ⟨s', rfl, h⟩
  | init => obtain rfl := hc; exact ⟨_, rfl, h.start ..⟩
  | seed v => exact absurd rfl hseed
  | setck v => obtain rfl := hc; exact ⟨_, rfl, h.latch ..⟩
  | abs b =>
    obtain ⟨ha, rfl⟩ := hc
    exact ⟨_, ⟨hphase ▸ ha, rfl⟩, h.foldPending.acc1 ..⟩
  | vabs lane =>
    obtain ⟨ha, hlane, rfl⟩ := hc
    have hlane' : P.length = s'.cfg.W := lane_length_of_wf hwf'
    refine ⟨_, ⟨hphase ▸ ha, hlane', rfl⟩, ?_⟩
    rw [← hcfg]
    split
    · exact h.absorbLane ..
    · exact h.absorbBytes (by rw [hlane, hlane', hcfg])
  | fin =>
    obtain ⟨ha, rfl⟩ := hc
    exact ⟨_, ⟨hphase ▸ ha, rfl⟩, (h.settle.latch ..).with_phase .done⟩
  | ser =>
    obtain ⟨v, b, hck, hb, rfl⟩ := hc
    obtain ⟨v', hck'⟩ := h.ck_eq_some hck
    obtain ⟨b', hb'⟩ : ∃ b', (be32 v')[s'.sp.val]? = some b' := by
      rw [← Option.ne_none_iff_exists', ne_eq, ← hsp, be32_getElem?_eq_none_congr v' v, hb]
      exact Option.some_ne_none b
    exact ⟨_, ⟨v', b', hck', hb', rfl⟩, (h.emit ..).with_sp⟩
  | rdCk =>
    obtain ⟨v, hck, rfl⟩ := hc
    obtain ⟨v', hck'⟩ := h.ck_eq_some hck
    exact ⟨_, ⟨v', hck', rfl⟩, h.emit ..⟩
  | rdS1 => obtain rfl := hc; exact ⟨_, rfl, h.emit ..⟩
  | rdS2 => obtain rfl := hc; exact ⟨_, rfl, h.emit ..⟩
  | rdStatus => obtain rfl := hc; exact ⟨_, rfl, h.emit ..⟩
  | rdCap => obtain rfl := hc; exact ⟨_, rfl, h.emit ..⟩

end State.SameControl

/-! ### The obligations -/

/-- Settles O4: the decoder reads the row back from the opcode byte, takes as many bytes as the
format of that row says, and the payload gives the operands back. -/
theorem decodeOfEncode : Obligations.DecodeOfEncode :=
  fun _ _ rest hwf => decode_encode_append hwf rest

/-- Settles O5: one lemma for each answer of the decoder. -/
theorem encodeOfDecode : Obligations.EncodeOfDecode := by
  intro c bytes
  split
  next i rest h => exact wf_and_eq_of_decode_packet h
  next op rest h => exact decode_reserved_iff.mp h
  next h => exact short_of_decode_held h
  next h => exact eq_nil_of_decode_empty h

/-- Settles O39: a fault entry writes the same record in both states, and a command that completes
moves the control state by its opcode and the control state alone. -/
theorem opcodesAloneDriveSequencing : Obligations.OpcodesAloneDriveSequencing := by
  intro i i' s s' t hop hseed _ hwf' h hexec
  obtain ⟨hl, ⟨c, hr, rfl⟩ | hc⟩ := exec_next_cases hexec
  · refine ⟨_, exec_of_raises (h.live hl) (h.raises hop hseed hwf' hr), ?_⟩
    rw [hop]
    exact h.raise ..
  · obtain ⟨t', hc', ht⟩ := h.completes hop hseed hwf' hc
    exact ⟨t', exec_of_completes (h.live hl) hc', ht⟩

/-- Settles O56: by induction on the lanes cut, with the remaining `n mod W` bytes as DATA. -/
theorem pseudoInstructionsCarryTheirBytes : Obligations.PseudoInstructionsCarryTheirBytes := by
  intro c bytes
  refine ⟨message_data bytes, message_lanesThenData .., fun i hi =>
    absorbs_and_wf_of_mem_lanesThenData (Nat.div_mul_le_self ..) hi, ?_⟩
  rw [Assembler.vdata, map_opcode_lanesThenData, ← Nat.mod_eq_sub_div_mul]

/-- Settles O2: each byte is the opcode byte of a row or reserved, and 13 of 256 are the former. -/
theorem opcodeMapAndPacketLengths : Obligations.OpcodeMapAndPacketLengths :=
  ⟨packetLength_eq, fun _ => Opcode.ofByte?_eq_none_iff, reserved_bytes_count⟩

/-- Settles O3: each written packet is the packet of its command. -/
theorem writtenPacketsDecode : Obligations.WrittenPacketsDecode := by
  intro c
  have written {bytes rest : List Byte} {i : Instr} (hwf : i.wf c = true)
      (h : bytes = encode i ++ rest) : decode c bytes = .packet i rest :=
    decode_packet_iff.mpr ⟨hwf, h⟩
  exact ⟨written rfl rfl, written rfl rfl, written rfl rfl, written rfl rfl, written rfl rfl,
    written rfl rfl, written rfl rfl, written rfl rfl, written rfl rfl, written rfl rfl,
    written rfl rfl, written rfl rfl,
    fun lane hlane => written (beq_iff_eq.mpr hlane) (List.append_nil (encode (.vabs lane))).symm⟩

/-- Settles O23: such a lane is no lane of a packet, and every command of a packet has an answer. -/
theorem onlyWholeLanesExecute : Obligations.OnlyWholeLanesExecute :=
  ⟨fun _ _ hlane => ⟨exec_vabs_of_length_ne hlane, fun _ _ h => hlane (lane_length_of_decode h)⟩,
    step_ne_refused⟩

end Machine

end Sys2Proof
end

section
/-! PROOFS of the family `40_control.md`: the control commands NOP (R60), INIT (R61), SEED (R62) and
SETCK (R63). -/

namespace Sys2Proof.Machine

variable {i : Instr} {s t : State} {v : Word}

/-! ### The halves of a seed -/

/-- R48, R62: the low half of a seed, as a sum. -/
theorem lo16_setWidth_toNat (v : Word) : ((lo16 v).setWidth 32).toNat = v.toNat % 65536 := by
  rw [BitVec.toNat_setWidth_of_le (by decide), lo16, BitVec.extractLsb'_toNat, Nat.shiftRight_zero]

/-- R48, R62: the high half of a seed, as a sum. -/
theorem hi16_setWidth_toNat (v : Word) : ((hi16 v).setWidth 32).toNat = v.toNat / 65536 := by
  have hv := v.isLt
  rw [BitVec.toNat_setWidth_of_le (by decide), hi16, BitVec.extractLsb'_toNat,
    Nat.shiftRight_eq_div_pow]
  omega

/-- R62: the range check of SEED, on the value of its immediate. -/
theorem seedLegal_iff : seedLegal v = true ↔ v.toNat / 65536 < MOD ∧ v.toNat % 65536 < MOD := by
  rw [← hi16_setWidth_toNat, ← lo16_setWidth_toNat, BitVec.toNat_setWidth_of_le (by decide),
    BitVec.toNat_setWidth_of_le (by decide), seedLegal, decide_eq_true_iff]

/-! ### Starting a computation -/

/-- R29, R61: reset has already started the default computation. -/
theorem start_resetOf (c : Config) : (State.resetOf c).start 1 0 = State.resetOf c := rfl

/-- R61, R96: a computation just started has no block to fold, so FIN only reduces its sums. -/
theorem settle_start (a b : Word) (s : State) : (s.start a b).settle = (s.start a b).reduce := by
  rw [State.settle, State.foldPending_of_none (State.start_vn a b s)]

/-- R61, R95: the checksum of the empty message. -/
theorem finalize_start_default (s : State) :
    finalize (s.start 1 0).settle.s1 (s.start 1 0).settle.s2 = 0x00000001 := by
  rw [settle_start, State.reduce_s1, State.reduce_s2, State.start_s1, State.start_s2]
  decide

/-- R62: a SEED in range starts a computation from its halves in every phase in which a command
executes. -/
theorem exec_seed_of_legal (h : seedLegal v = true) :
    exec (.seed v) s =
      s.whenLive (.next (s.start ((lo16 v).setWidth 32) ((hi16 v).setWidth 32))) := by
  rw [exec, execSeed, if_pos h]

/-- R61, R62: `SEED 0x00000001` is in range and its halves are the sums of INIT. -/
theorem exec_seed_one (s : State) : exec (.seed 0x00000001) s = exec .init s := by
  have hlo : (lo16 0x00000001).setWidth 32 = 1 := by decide
  have hhi : (hi16 0x00000001).setWidth 32 = 0 := by decide
  rw [exec_seed_of_legal (by decide), hlo, hhi, exec, execInit]

/-! ### Commands one after another -/

/-- The commands behind one that completes execute in the state it leads to. -/
theorem execAll_cons_of_completes (hl : s.phase ≠ .fault) (h : Completes i s t)
    (is : List Instr) : execAll (i :: is) s = execAll is t := by
  rw [execAll, exec_of_completes hl h]

/-- Two commands that complete one after another. -/
theorem execAll_pair_of_completes {i' : Instr} {u : State} (hl : s.phase ≠ .fault)
    (h : Completes i s t) (h' : Completes i' t u) : execAll [i, i'] s = .next u := by
  rw [execAll_cons_of_completes hl h, execAll_cons_of_completes (live_of_completes hl h) h', execAll]

/-! ### The obligations -/

/-- Settles O13: NOP completes with the same state, and its packet is the one byte the step takes. -/
theorem nopChangesNothing : Obligations.NopChangesNothing := by
  refine ⟨rfl, fun s hl => ⟨exec_of_completes hl rfl, fun rest hcmd => ?_⟩⟩
  have hfetch : s.fetch = .packet .nop rest := decode_packet_iff.mpr ⟨rfl, hcmd⟩
  rw [step_of_packet hl hfetch]
  exact exec_of_completes (s := s.advance rest) hl rfl

/-- Settles O14: INIT completes to the start of the default computation, which is the state of reset,
and FIN latches the checksum of the empty message there. -/
theorem initStartsDefaultComputation : Obligations.InitStartsDefaultComputation := by
  refine ⟨rfl, fun s hl => ⟨exec_of_completes hl rfl, ?_⟩, fun c => ?_⟩
  · exact ⟨_, execAll_pair_of_completes hl (t := s.start 1 0) rfl ⟨rfl, rfl⟩,
      congrArg some (finalize_start_default s)⟩
  · exact exec_of_completes Phase.noConfusion (start_resetOf c).symm

/-- Settles O15: a seed with both halves in range completes to the start of a computation from them,
and the halves of `SEED 0x00000001` are the sums of INIT. -/
theorem seedStartsGivenComputation : Obligations.SeedStartsGivenComputation := by
  refine ⟨fun s v hl hhi hlo => ?_, exec_seed_one⟩
  exact ⟨_, exec_of_completes hl ⟨seedLegal_iff.mpr ⟨hhi, hlo⟩, rfl⟩, lo16_setWidth_toNat v,
    hi16_setWidth_toNat v, rfl⟩

/-- Settles O17: SETCK completes to the latched state in either phase, and RD.CK finds the value
there. -/
theorem setckLoadsAnyChecksum : Obligations.SetckLoadsAnyChecksum :=
  fun s v hl => ⟨rfl, ⟨s.latch v, exec_of_completes hl rfl, rfl, rfl⟩,
    execAll_pair_of_completes hl (t := s.latch v) rfl ⟨v, rfl, rfl⟩⟩

end Sys2Proof.Machine
end

section
/-! PROOFS of the family `41_scalar.md`: ABS with and without a pending block (R71, R72), and the
bounds of the sums that ABS, VABS and FIN form (R74, R88). -/

namespace Sys2Proof.Machine

variable {s : State} {lane : List Byte}

/-! ### ABS in ACTIVE -/

/-- R72: in ACTIVE, ABS folds a pending block and accumulates its byte. -/
theorem exec_abs_of_active (ha : s.phase = .active) (b : Byte) :
    exec (.abs b) s = .next (s.foldPending.acc1 b) :=
  exec_of_completes (by simp [ha]) ⟨ha, rfl⟩

/-- R71, R74: the sums after a byte that is not the last of its stride. -/
theorem State.SumInv.acc1_sums_within (h : s.SumInv) (b : Byte) (hc : s.cnt.toNat < 15) :
    (s.acc1 b).s1.toNat = s.s1.toNat + b.toNat ∧
      (s.acc1 b).s2.toNat = s.s2.toNat + (s.s1.toNat + b.toNat) ∧
      (s.acc1 b).cnt.toNat = s.cnt.toNat + 1 := by
  obtain ⟨hs1, hs2, -, -⟩ := h.addByte b
  have hcnt : (s.cnt + 1).toNat = s.cnt.toNat + 1 :=
    BitVec.toNat_add_of_lt (show s.cnt.toNat + 1 < 16 by omega)
  rw [State.acc1_within b hc.ne]
  exact ⟨hs1, hs2, hcnt⟩

/-- R70, R71: the sums after the last byte of a stride. -/
theorem State.SumInv.acc1_sums_last (h : s.SumInv) (b : Byte) (hc : s.cnt.toNat = 15) :
    (s.acc1 b).s1.toNat = (s.s1.toNat + b.toNat) % MOD ∧
      (s.acc1 b).s2.toNat = (s.s2.toNat + (s.s1.toNat + b.toNat)) % MOD ∧
      (s.acc1 b).cnt = 0 := by
  obtain ⟨hs1, hs2, -, -⟩ := h.addByte b
  rw [State.acc1_last b hc, Machine.reduce_s1, Machine.reduce_s2, hs1, hs2]
  exact ⟨rfl, rfl, rfl⟩

/-- R72, R83: what is written when a block is folded and one byte is accumulated behind it. -/
theorem State.acc1_vfold_frame (b : Byte) (s : State) :
    s.vfold.acc1 b =
      { s with
        s1 := (s.vfold.acc1 b).s1, s2 := (s.vfold.acc1 b).s2, cnt := 1, vn := 0, vs := 0, va := 0,
        vc := List.replicate s.cfg.W 0 } := by
  rw [State.acc1_within b (by simp)]
  rfl

/-! ### One lane more in a block with room -/

namespace Block

/-- R18, R88: the bound of a column by its index. -/
theorem getD_column_le (h : Block s) (j : Nat) : (s.vc.getD j 0).toNat ≤ 255 * s.vn.toNat := by
  by_cases hj : j < s.vc.length
  · rw [List.getD_eq_getElem _ _ hj]
    exact h.columnBound _ (List.getElem_mem hj)
  · rw [List.getD_eq_default _ _ (by omega)]
    exact Nat.zero_le _

/-- R88: the bound of a column after one more byte. -/
theorem column_add_le (h : Block s) (hv : s.vn.toNat < s.cfg.lanesMax) (j : Nat) (b : Byte) :
    (s.vc.getD j 0).toNat + b.toNat ≤ 88485 := by
  have hcolumn := h.getD_column_le j
  have hb := b.isLt
  have hmax := (lanesMax_range s.cfg).2
  omega

/-- R88: the bound of S1 in the fold of a block after one more lane. -/
theorem s1_sum_add_lane_le (h : Block s) (hl : lane.length = s.cfg.W)
    (hv : s.vn.toNat < s.cfg.lanesMax) :
    s.s1.toNat + (s.vs.toNat + byteSum lane) ≤ 1481280 := by
  rw [← h.vacc_vs hl]
  exact (h.vacc hl hv).s1_sum_le

/-- R88: the bound of S2 in the fold of a block after one more lane. -/
theorem fold_add_lane_le (h : Block s) (hl : lane.length = s.cfg.W)
    (hv : s.vn.toNat < s.cfg.lanesMax) :
    exactFold s.cfg.W (s.vn.toNat + 1) s.s1.toNat s.s2.toNat (s.va.toNat + s.vs.toNat)
      (List.zipWith (fun c b => c.toNat + b.toNat) s.vc lane) ≤ 4294690200 := by
  rw [← h.vacc_va (lane := lane) hv, ← vacc_vn (lane := lane) hv, ← h.vacc_vc hl]
  exact (h.vacc hl hv).fold_le

end Block

/-! ### The obligations -/

/-- Settles O18: with no block pending ABS is ACC1, whose additions are exact under the invariant. -/
theorem absAccumulatesByte : Obligations.AbsAccumulatesByte := by
  intro s b h ha hv
  have hexec : exec (.abs b) s = .next (s.acc1 b) := by
    rw [exec_abs_of_active ha, State.foldPending_of_none hv]
  exact ⟨s.acc1 b, hexec, State.acc1_frame b s, h.acc1_sums_within b, h.acc1_sums_last b⟩

/-- Settles O19: the fold of the pending block is exact and leaves CNT = 0, so the byte behind it is
accumulated exactly and not reduced. -/
theorem absFoldsPendingBlock : Obligations.AbsFoldsPendingBlock := by
  intro s b h ha hv
  have hexec : exec (.abs b) s = .next (s.vfold.acc1 b) := by
    rw [exec_abs_of_active ha, State.foldPending_of_block hv]
  have hblock := h.block (h.exclusive hv)
  obtain ⟨hs1, hs2, -⟩ := (sumInv_vfold s).acc1_sums_within b (by simp)
  rw [← hs1, hblock.vfold_s2] at hs2
  rw [hblock.vfold_s1] at hs1
  exact ⟨_, hexec, State.acc1_vfold_frame b s, hs1, hs2⟩

/-- Settles O25: the bounds of ACC1 and of the fold of a block, and a block with room is a block again
after one more lane. -/
theorem noSumReachesWordSize : Obligations.NoSumReachesWordSize := by
  intro s h
  refine ⟨fun _ b => ?_, fun hc => ?_, fun hc lane hl => ?_⟩
  · obtain ⟨-, -, hs1, hs2⟩ := h.addByte b
    exact ⟨hs1, hs2⟩
  · exact ⟨(h.block hc).s1_sum_le, (h.block hc).fold_le⟩
  · have hblock := h.block hc
    exact ⟨hblock.s1_sum_add_lane_le hl h.lanes, hblock.va_bound h.lanes,
      fun j _ => hblock.column_add_le h.lanes j _, hblock.fold_add_lane_le hl h.lanes⟩

end Sys2Proof.Machine
end

section
/-! PROOFS of the family `42_vector.md`: VABS with the vector path (R84) and without it (R85), and
the fold of a block as so many scalar accumulations (R89). -/

namespace Sys2Proof.Machine

variable {s : State} {lane : List Byte}

/-! ### VABS in ACTIVE -/

/-- R84, R85: in ACTIVE, VABS absorbs a lane of W bytes by the path of the configuration. -/
theorem exec_vabs_of_active (ha : s.phase = .active) (hl : lane.length = s.cfg.W) :
    exec (.vabs lane) s =
      .next (if s.cfg.hasVector then s.absorbLane lane else s.absorbBytes lane) :=
  exec_of_completes (by simp [ha]) ⟨ha, hl, rfl⟩

/-- R70, R84: VABS always starts from reduced sums: with no stride pending they are reduced already,
and REDUCE changes nothing. -/
theorem State.SumInv.reducePending_eq_reduce (h : s.SumInv) : s.reducePending = s.reduce := by
  by_cases hc : s.cnt = 0
  · obtain ⟨h1, h2⟩ := h.reduced hc
    have hs1 : s.reduce.s1 = s.s1 :=
      BitVec.eq_of_toNat_eq ((Machine.reduce_s1 s).trans (Nat.mod_eq_of_lt h1))
    have hs2 : s.reduce.s2 = s.s2 :=
      BitVec.eq_of_toNat_eq ((Machine.reduce_s2 s).trans (Nat.mod_eq_of_lt h2))
    calc s.reducePending = s := State.reducePending_of_none hc
      _ = { s with s1 := s.reduce.s1, s2 := s.reduce.s2, cnt := 0 } := by rw [hs1, hs2, ← hc]
      _ = s.reduce := rfl
  · exact State.reducePending_of_stride hc

/-- R84: a lane that leaves room in the block is parked behind the reduced sums. -/
theorem State.SumInv.absorbLane_of_room (h : s.SumInv)
    (hroom : s.vn.toNat + 1 < s.cfg.lanesMax) : s.absorbLane lane = s.reduce.vacc lane := by
  have hvn : (s.reduce.vacc lane).vn.toNat = s.vn.toNat + 1 :=
    Block.vacc_vn (s := s.reduce) (Nat.lt_of_succ_lt hroom)
  rw [State.absorbLane, h.reducePending_eq_reduce,
    State.foldFull_of_room (hvn.trans_ne hroom.ne)]

/-- R84, R87: a lane that fills the block folds it. A block takes more than one lane, so one is
pending already and no stride is. -/
theorem State.SumInv.absorbLane_of_full (h : s.SumInv)
    (hfull : s.vn.toNat + 1 = s.cfg.lanesMax) :
    s.cnt = 0 ∧ s.absorbLane lane = (s.vacc lane).vfold := by
  have hc : s.cnt = 0 := h.cnt_of_block (by have := (lanesMax_range s.cfg).1; omega)
  have hvn : (s.vacc lane).vn.toNat = s.cfg.lanesMax := (Block.vacc_vn h.lanes).trans hfull
  rw [State.absorbLane, State.reducePending_of_none hc, State.foldFull_of_full hvn]
  exact ⟨hc, rfl⟩

/-- R82, R88: VACC adds to each column its byte, exactly. -/
theorem Block.vacc_column (h : Block s) (hl : lane.length = s.cfg.W)
    (hv : s.vn.toNat < s.cfg.lanesMax) {j : Nat} (hj : j < s.cfg.W) :
    ((s.vacc lane).vc.getD j 0).toNat = (s.vc.getD j 0).toNat + (lane.getD j 0).toNat := by
  have hcolumn : (s.vacc lane).vc.getD j 0 = s.vc.getD j 0 + zext32 (lane.getD j 0) := by
    have hvc : j < s.vc.length := h.columns.symm ▸ hj
    simp [hl, hj, hvc]
  have hbound := h.column_add_le hv j (lane.getD j 0)
  rw [hcolumn, BitVec.toNat_add_of_lt, zext32_toNat]
  rw [zext32_toNat]
  omega

/-- R85: with no block pending, one ABS per byte does the `W` ACC1 of the fall-back. -/
theorem execAll_abs_of_active (ha : s.phase = .active) (hv : s.vn = 0) (l : List Byte) :
    execAll (l.map .abs) s = .next (s.absorbBytes l) := by
  induction l generalizing s with
  | nil => rfl
  | cons b bs ih =>
    have hb : Completes (.abs b) s (s.acc1 b) :=
      ⟨ha, by rw [State.foldPending_of_none hv]⟩
    rw [List.map_cons, execAll_cons_of_completes (by simp [ha]) hb]
    exact ih (by simp [ha]) (by simp [hv])

/-! ### A block as scalar accumulations -/

/-- R89: the exact sums of a message accumulated with no reduction: each byte weighs as many
additions into the second sum as follow its arrival, its own included. -/
theorem rawSums_eq (p : Nat × Nat) (msg : List Byte) :
    rawSums p msg =
      (p.1 + byteSum msg,
        p.2 + msg.length * p.1 + weightedNat msg.length (msg.map BitVec.toNat)) := by
  induction msg generalizing p with
  | nil => simp [rawSums, weightedNat]
  | cons b bs ih =>
    have hcons : rawSums p (b :: bs) = rawSums (p.1 + b.toNat, p.2 + (p.1 + b.toNat)) bs := rfl
    rw [hcons, ih]
    ext
    · simp only [byteSum_cons]; ring
    · simp only [List.length_cons, List.map_cons, weightedNat, Nat.add_sub_cancel]; ring

theorem rawSums_append (p : Nat × Nat) (xs ys : List Byte) :
    rawSums p (xs ++ ys) = rawSums (rawSums p xs) ys := List.foldl_append

/-- R113: reducing after every byte gives the residues of the unreduced sums. -/
theorem a32Sums_mod (p : Nat × Nat) (msg : List Byte) :
    a32Sums (p.1 % MOD, p.2 % MOD) msg =
      ((rawSums p msg).1 % MOD, (rawSums p msg).2 % MOD) := by
  induction msg generalizing p with
  | nil => rfl
  | cons b bs ih =>
    have hstep : a32Step (p.1 % MOD, p.2 % MOD) b =
        ((p.1 + b.toNat) % MOD, (p.2 + (p.1 + b.toNat)) % MOD) := by
      simp [a32Step, Nat.add_mod]
    calc a32Sums (p.1 % MOD, p.2 % MOD) (b :: bs)
        = a32Sums (a32Step (p.1 % MOD, p.2 % MOD) b) bs := rfl
      _ = _ := by rw [hstep, ih (p.1 + b.toNat, p.2 + (p.1 + b.toNat))]; rfl

/-- R86, R89: a lane's bytes enter the weighted sum of the columns with the columns' weights. -/
theorem weightedNat_columns_add (w : Nat) {vc : List Word} {lane : List Byte}
    (hl : vc.length = lane.length) :
    weightedNat w (List.zipWith (fun c b => c.toNat + b.toNat) vc lane) =
      weightedNat w (vc.map BitVec.toNat) + weightedNat w (lane.map BitVec.toNat) := by
  induction vc generalizing w lane with
  | nil => match lane, hl with | [], _ => rfl
  | cons c cs ih =>
    match lane, hl with
    | b :: bs, hl =>
      simp only [List.zipWith_cons_cons, List.map_cons, weightedNat, ih (w - 1) (Nat.succ.inj hl)]
      ring

/-- R83: the sums that folding the pending block forms before it reduces them, over the natural
numbers. -/
def State.pendingSums (s : State) : Nat × Nat :=
  (s.s1.toNat + s.vs.toNat,
    exactFold s.cfg.W s.vn.toNat s.s1.toNat s.s2.toNat s.va.toNat (s.vc.map BitVec.toNat))

/-- R19 (a): clearing the registers of an empty block writes what they hold. -/
theorem State.clearBlock_of_empty (hvn : s.vn = 0) (hvs : s.vs = 0) (hva : s.va = 0)
    (hvc : s.vc = List.replicate s.cfg.W 0) : s.clearBlock = s := by
  cases s
  simp_all [State.clearBlock]

theorem State.pendingSums_clearBlock (s : State) :
    s.clearBlock.pendingSums = (s.s1.toNat, s.s2.toNat) := by
  have hcolumns : weightedNat s.cfg.W (List.replicate s.cfg.W 0) = 0 :=
    Nat.le_zero.mp ((weightedNat_le _ 0 _ (by simp) (by simp)).trans_eq (Nat.zero_mul _))
  rw [State.pendingSums, exactFold_eq _ _ _ _ _ (by simp)]
  simp [hcolumns]

namespace Block

/-- R83, R88: VFOLD forms the pending sums in its 32-bit words. -/
theorem toNat_pendingSums (h : Block s) :
    ((s.s1 + s.vs).toNat, s.foldedS2.toNat) = s.pendingSums := by
  rw [h.s1_sum, h.foldedS2_toNat]
  rfl

/-- R83: VFOLD leaves the residues of the pending sums. -/
theorem vfold_pendingSums (h : Block s) :
    (s.vfold.s1.toNat, s.vfold.s2.toNat) = (s.pendingSums.1 % MOD, s.pendingSums.2 % MOD) := by
  rw [h.vfold_s1, h.vfold_s2]
  rfl

/-- R89: parking a lane moves the pending sums as accumulating its bytes does. -/
theorem pendingSums_vacc (h : Block s) (hl : lane.length = s.cfg.W)
    (hv : s.vn.toNat < s.cfg.lanesMax) :
    (s.vacc lane).pendingSums = rawSums s.pendingSums lane := by
  have hcolumns : s.vc.length = lane.length := h.columns.trans hl.symm
  rw [rawSums_eq, State.pendingSums, State.pendingSums, h.vacc_vs hl, h.vacc_va hv, vacc_vn hv,
    h.vacc_vc hl, State.vacc_s1, State.vacc_s2, State.vacc_cfg,
    exactFold_eq _ _ _ _ _ (by simp [h.columns, hl]), exactFold_eq _ _ _ _ _ (by simp [h.columns]),
    weightedNat_columns_add _ hcolumns, hl]
  ext <;> ring

/-- R89: lanes parked one after another, while there is room for them all. -/
theorem foldl_vacc {lanes : List (List Byte)} (h : Block s)
    (hl : ∀ lane ∈ lanes, lane.length = s.cfg.W)
    (hv : s.vn.toNat + lanes.length ≤ s.cfg.lanesMax) :
    Block (lanes.foldl (fun v lane => v.vacc lane) s) ∧
      (lanes.foldl (fun v lane => v.vacc lane) s).pendingSums =
        rawSums s.pendingSums lanes.flatten := by
  induction lanes generalizing s with
  | nil => exact ⟨h, rfl⟩
  | cons lane lanes ih =>
    obtain ⟨hlane, hlanes⟩ := List.forall_mem_cons.mp hl
    rw [List.length_cons] at hv
    have hroom : s.vn.toNat < s.cfg.lanesMax := by omega
    have hrest : (s.vacc lane).vn.toNat + lanes.length ≤ (s.vacc lane).cfg.lanesMax := by
      rw [vacc_vn hroom, State.vacc_cfg]; omega
    rw [List.foldl_cons, List.flatten_cons, rawSums_append, ← h.pendingSums_vacc hlane hroom]
    exact ih (h.vacc hlane hroom) hlanes hrest

end Block

/-! ### The obligations -/

/-- Settles O20: with room in the block VABS is REDUCE and VACC, whose additions are exact on a
block. -/
theorem vabsParksLane : Obligations.VabsParksLane := by
  intro s lane h ha hvec hl hroom
  have hexec : exec (.vabs lane) s = .next (s.reduce.vacc lane) := by
    rw [exec_vabs_of_active ha hl, if_pos hvec, h.absorbLane_of_room hroom]
  have hblock : Block s.reduce := h.reducePending_eq_reduce ▸ h.reducePending.1
  have hv : s.reduce.vn.toNat < s.reduce.cfg.lanesMax := Nat.lt_of_succ_lt hroom
  exact ⟨_, hexec, rfl, reduce_s1 s, reduce_s2 s, Block.vacc_vn hv, hblock.vacc_vs hl,
    hblock.vacc_va hv, (hblock.vacc hl hv).columns, fun _ hj => hblock.vacc_column hl hv hj⟩

/-- Settles O21: the lane that fills the block is VACC and VFOLD, both exact on a block. -/
theorem vabsFoldsFullBlock : Obligations.VabsFoldsFullBlock := by
  intro s lane h ha hvec hl hfull
  obtain ⟨hc, habsorb⟩ := h.absorbLane_of_full (lane := lane) hfull
  have hexec : exec (.vabs lane) s = .next (s.vacc lane).vfold := by
    rw [exec_vabs_of_active ha hl, if_pos hvec, habsorb]
  have hblock := h.block hc
  have hs1 := (hblock.vacc hl h.lanes).vfold_s1
  have hs2 := (hblock.vacc hl h.lanes).vfold_s2
  rw [hblock.vacc_vs hl] at hs1
  rw [hblock.vacc_va h.lanes, hblock.vacc_vc hl, Block.vacc_vn h.lanes, hfull] at hs2
  exact ⟨_, hexec, rfl, hs1, hs2⟩

/-- Settles O22: both are the same ACC1 in lane order, since no ABS finds a block to fold. -/
theorem vabsFallsBackToScalar : Obligations.VabsFallsBackToScalar := by
  intro s lane ha hvec hv hl
  have hexec : exec (.vabs lane) s = .next (s.absorbBytes lane) := by
    rw [exec_vabs_of_active ha hl, if_neg (by simp [hvec])]
  exact ⟨_, hexec, execAll_abs_of_active ha hv lane, hl ▸ State.absorbBytes_cnt lane s,
    State.absorbBytes_frame lane s⟩

/-- Settles O26: the pending sums of the empty block are S1 and S2, each lane moves them as its
bytes accumulated one by one do, and their residues are the reference function's sums. -/
theorem foldEqualsScalarAccumulation : Obligations.FoldEqualsScalarAccumulation := by
  rintro s u lanes h1 h2 hvn hvs hva hvc hl hn rfl
  have hempty := State.clearBlock_of_empty hvn hvs hva hvc
  have hblock : Block s := hempty ▸ Block.of_clearBlock s h1 h2
  have hstart : s.pendingSums = (s.s1.toNat, s.s2.toNat) :=
    hempty ▸ State.pendingSums_clearBlock s
  obtain ⟨hfolded, hsums⟩ := hblock.foldl_vacc hl (by simpa [hvn] using hn)
  have hresidues := a32Sums_mod (s.s1.toNat, s.s2.toNat) lanes.flatten
  rw [Nat.mod_eq_of_lt h1, Nat.mod_eq_of_lt h2] at hresidues
  rw [hstart] at hsums
  rw [hfolded.toNat_pendingSums, hfolded.vfold_pendingSums, hsums, hresidues]
  exact ⟨rfl, rfl⟩

end Sys2Proof.Machine
end

section
/-! PROOFS of the family `43_finalize_serialize.md`: FIN (R95, R96), and the serialiser with its
trailer (R97 to R99). -/

namespace Sys2Proof

/-- R98: the byte SER sends is the checksum shifted down to it. -/
theorem be32_getElem? (v : Word) {n : Nat} (hn : n < 4) :
    (be32 v)[n]? = some (BitVec.ofNat 8 (v.toNat / 2 ^ (8 * (3 - n)))) := by
  have hbyte (start : Nat) :
      v.extractLsb' start 8 = BitVec.ofNat 8 (v.toNat / 2 ^ start) := by
    rw [BitVec.extractLsb', Nat.shiftRight_eq_div_pow]
  simp only [be32, hbyte]
  interval_cases n <;> rfl

namespace Machine

variable {s : State} {v : Word} {b : Byte}

/-! ### FIN -/

/-- R95: of two reduced sums FINALIZE is `s2 * 65536 + s1`: the shift loses no bit of S2, and S1
fits below it. -/
theorem finalize_toNat {s1 s2 : Word} (h1 : s1.toNat < MOD) (h2 : s2.toNat < MOD) :
    (finalize s1 s2).toNat = s2.toNat * 65536 + s1.toNat := by
  unfold MOD at h1 h2
  have hlow : s1.toNat < 2 ^ 16 := by omega
  have hshift : (s2 <<< 16).toNat = s2.toNat <<< 16 := by
    rw [BitVec.toNat_shiftLeft, Nat.shiftLeft_eq]
    omega
  rw [finalize, BitVec.toNat_or, hshift, ← Nat.shiftLeft_add_eq_or_of_lt hlow, Nat.shiftLeft_eq]

/-- R95, R96: the checksum FIN latches, by the reduced sums it leaves. -/
theorem finalize_settle (s : State) :
    finalize s.settle.s1 s.settle.s2 =
      BitVec.ofNat 32 (s.settle.s2.toNat * 65536 + s.settle.s1.toNat) := by
  obtain ⟨h1, h2⟩ : s.settle.s1.toNat < MOD ∧ s.settle.s2.toNat < MOD := reduce_lt s.foldPending
  rw [← finalize_toNat h1 h2, BitVec.ofNat_toNat, BitVec.setWidth_eq]

namespace State.SumInv

/-- R19 (a), R96: with no block pending FIN only reduces, and clears block registers that are zero
already. -/
theorem settle_of_none (h : s.SumInv) (hv : s.vn = 0) : s.settle = s.clearBlock.reduce := by
  obtain ⟨hvs, hva, hvc⟩ := h.empty hv
  rw [State.settle, foldPending_of_none hv, clearBlock_of_empty hv hvs hva hvc]

/-- R96: with a block pending FIN folds it, and the REDUCE behind the fold changes nothing. -/
theorem settle_of_block (hv : s.vn ≠ 0) : s.settle = s.vfold := by
  rw [State.settle, foldPending_of_block hv, ← (sumInv_vfold s).reducePending_eq_reduce,
    reducePending_of_none (vfold_cnt s)]

/-- R96: what FIN writes before it latches. -/
theorem settle_frame (h : s.SumInv) :
    s.settle =
      { s with
        s1 := s.settle.s1, s2 := s.settle.s2, cnt := 0, vn := 0, vs := 0, va := 0,
        vc := List.replicate s.cfg.W 0 } := by
  by_cases hv : s.vn = 0
  · rw [h.settle_of_none hv]; rfl
  · rw [settle_of_block hv]; rfl

/-- R83, R96: FIN leaves the residues of the pending sums, whether a block is pending or not. -/
theorem settle_pendingSums (h : s.SumInv) :
    (s.settle.s1.toNat, s.settle.s2.toNat) = (s.pendingSums.1 % MOD, s.pendingSums.2 % MOD) := by
  by_cases hv : s.vn = 0
  · obtain ⟨hvs, hva, hvc⟩ := h.empty hv
    have hsums : s.pendingSums = (s.s1.toNat, s.s2.toNat) :=
      clearBlock_of_empty hv hvs hva hvc ▸ s.pendingSums_clearBlock
    rw [h.settle_of_none hv, Machine.reduce_s1, Machine.reduce_s2, hsums]
    rfl
  · rw [settle_of_block hv]
    exact (h.block (h.exclusive hv)).vfold_pendingSums

end State.SumInv

/-! ### SER -/

/-- R98: SER completes while a byte of the latched checksum is left. -/
theorem completes_ser (hck : s.ck = some v) (hb : (be32 v)[s.sp.val]? = some b) :
    Completes .ser s { s.emit (.tx b) with sp := s.sp + 1 } :=
  ⟨v, b, hck, hb, rfl⟩

/-- R137: with the four bytes sent SER takes the fault ERR_SEROVR. -/
theorem exec_ser_of_drained (hl : s.phase ≠ .fault) (hck : s.ck = some v) (hsp : s.sp = 4) :
    exec .ser s = .next { s with err := 0x2105, phase := .fault } :=
  exec_of_raises (i := .ser) (c := .serovr) hl (.inr ⟨rfl, v, hck, by rw [hsp]; rfl⟩)

/-- R22: SP counts up while a byte is left. -/
theorem sp_succ_val {sp : Fin 5} (h : sp.val < 4) : (sp + 1).val = sp.val + 1 :=
  Fin.val_add_one_of_lt h

/-- R98: as many SER commands as bytes of the latched checksum are left put exactly these on TX, in
order, wherever SP stands. -/
theorem execAll_ser_of_drop {bs : List Byte} (hl : s.phase ≠ .fault) (hck : s.ck = some v)
    (hbs : (be32 v).drop s.sp.val = bs) :
    execAll (List.replicate bs.length .ser) s =
      .next { s with sp := 4, out := s.out ++ bs.map .tx } := by
  induction bs generalizing s with
  | nil =>
    have hsp : s.sp = 4 := by
      have := List.drop_eq_nil_iff.mp hbs
      rw [be32_length] at this
      omega
    rw [← hsp, List.map_nil, List.append_nil]
    rfl
  | cons b bs ih =>
    have hb : (be32 v)[s.sp.val]? = some b := by
      rw [← List.head?_drop, hbs, List.head?_cons]
    have hlt : s.sp.val < 4 := (List.getElem?_eq_some_iff.mp hb).1
    have hrest : (be32 v).drop (s.sp + 1).val = bs := by
      rw [sp_succ_val hlt, ← List.tail_drop, hbs, List.tail_cons]
    rw [List.length_cons, List.replicate_succ,
      execAll_cons_of_completes hl (completes_ser hck hb),
      ih (s := { s.emit (.tx b) with sp := s.sp + 1 }) hl hck hrest]
    simp

/-- R33, R35: bytes appended to the trace as `tx` events are appended to TX. -/
theorem State.txStream_append (s : State) (sp : Fin 5) (bs : List Byte) :
    State.txStream { s with sp := sp, out := s.out ++ bs.map .tx } = s.txStream ++ bs := by
  simp [State.txStream, List.filterMap_append, List.filterMap_map]

/-- R99: the last four bytes of a container are the bytes of its checksum. -/
theorem container_drop_length_sub (body : List Byte) (v : Word) :
    (container body v).drop ((container body v).length - 4) = be32 v :=
  List.drop_left' (by simp [container])

/-! ### The obligations -/

/-- Settles O27: FIN settles the sums to the residues of the pending ones, which fit in 16 bits
each, and latches the two side by side. -/
theorem finLatchesChecksum : Obligations.FinLatchesChecksum := by
  intro s h ha
  have hexec := exec_of_completes (i := .fin) (by simp [ha]) ⟨ha, rfl⟩
  obtain ⟨hs1, hs2⟩ := Prod.mk.inj h.settle_pendingSums
  refine ⟨_, hexec, ?_, hs1, hs2⟩
  rw [finalize_settle, h.settle_frame]
  rfl

/-- Settles O28: the byte of BE32(CK) at SP is the checksum shifted down to it. -/
theorem serSendsNextByte : Obligations.SerSendsNextByte :=
  fun _ v hl hck hsp =>
    ⟨_, exec_of_completes hl (completes_ser hck (be32_getElem? v hsp)), sp_succ_val hsp, rfl⟩

/-- Settles O30: at SP = 0 all four bytes are left for TRAILER, and none for a fifth SER. -/
theorem trailerPutsBigEndianChecksum : Obligations.TrailerPutsBigEndianChecksum := by
  intro s v hl hck hsp
  have hsent : execAll Assembler.trailer s =
      .next { s with sp := 4, out := s.out ++ (be32 v).map .tx } :=
    execAll_ser_of_drop (bs := be32 v) hl hck (by rw [hsp]; rfl)
  refine ⟨_, hsent, rfl, s.txStream_append 4 (be32 v), ?_, exec_ser_of_drained hl hck rfl,
    fun body => ?_⟩
  · have htop : v.toNat / 2 ^ 24 < 256 := Nat.div_lt_of_lt_mul v.isLt
    rw [be32_toNat, Nat.mod_eq_of_lt htop]
  · rw [container_drop_length_sub, ofBE32_be32]

end Machine

end Sys2Proof
end

section
/-! PROOFS of the family `44_read.md`: RD.CK, RD.S1 and RD.S2 (R106 to R108), RD.STATUS (R109) and
RD.CAP (R110). -/

namespace Sys2Proof

/-! ### Words made of fields -/

/-- R25, R26: a field shifted above the fields already in a word adds its multiple of `2 ^ n` to
their sum, while the word holds it. -/
theorem toNat_or_shiftLeft {x y : Word} {n a b : Nat} (hx : x.toNat = a) (hy : y.toNat = b)
    (ha : a < 2 ^ n) (hb : 2 ^ n * b < 2 ^ 32) : (x ||| y <<< n).toNat = a + 2 ^ n * b := by
  rw [BitVec.toNat_or, BitVec.toNat_shiftLeft, hx, hy, Nat.shiftLeft_eq, Nat.mul_comm b,
    Nat.mod_eq_of_lt hb, Nat.or_comm, ← Nat.two_pow_add_eq_or_of_lt ha, Nat.add_comm]

/-- R21, R26: the field of a flag is 1 or 0. -/
theorem toNat_setWidth_ofBool (b : Bool) :
    ((BitVec.ofBool b).setWidth 32).toNat = if b then 1 else 0 := by
  cases b <;> rfl

/-- R21, R23, R26: the field of a condition takes one bit. -/
theorem flag_le_one (p : Prop) [Decidable p] : (if p then 1 else 0) ≤ 1 := by
  split <;> decide

/-- R25, R26: when the bits of a field are 0. -/
theorem extractLsb'_eq_zero_iff {w : Word} {start len : Nat} :
    w.extractLsb' start len = 0 ↔ w.toNat / 2 ^ start % 2 ^ len = 0 := by
  rw [← Machine.toNat_eq_zero, BitVec.extractLsb'_toNat, Nat.shiftRight_eq_div_pow]

/-- R26: the CAP word as the sum of its fields. -/
theorem Config.cap_toNat (c : Config) :
    c.cap.toNat = c.W + 256 * (if c.hasVector then 1 else 0) + 65536 * c.lanesMax := by
  have hW := c.W_range
  have hlanes := Machine.lanesMax_range c
  have hvec := flag_le_one c.hasVector
  have hlow := toNat_or_shiftLeft (n := 8) (x := BitVec.ofNat 32 c.W)
    (Nat.mod_eq_of_lt (by omega)) (toNat_setWidth_ofBool c.hasVector) (by omega) (by omega)
  exact toNat_or_shiftLeft (n := 16) hlow (Nat.mod_eq_of_lt (by omega)) (by omega) (by omega)

namespace Machine

variable {i : Instr} {s t : State}

/-- R23: outside FAULT the code of the phase is 0 or 1. -/
theorem code_toNat_of_live (hl : s.phase ≠ .fault) :
    s.phase.code.toNat = if s.phase = .done then 1 else 0 := by
  cases h : s.phase with
  | active => rfl
  | done => rfl
  | fault => exact absurd h hl

/-- R25: the STATUS word as the sum of its fields. -/
theorem State.status_toNat (s : State) :
    s.status.toNat =
      s.phase.code.toNat + 4 * (if s.ckv then 1 else 0) + 8 * s.sp.val
        + 256 * s.cnt.toNat + 65536 * s.vn.toNat := by
  have hphase := s.phase.code.isLt
  have hckv := flag_le_one s.ckv
  have hsp := s.sp.isLt
  have hcnt := s.cnt.isLt
  have hvn := s.vn.isLt
  have hflags := toNat_or_shiftLeft (n := 2) (BitVec.toNat_setWidth_of_le (by decide))
    (toNat_setWidth_ofBool s.ckv) hphase (by omega)
  have hsent := toNat_or_shiftLeft (n := 3) (y := BitVec.ofNat 32 s.sp.val) hflags
    (Nat.mod_eq_of_lt (by omega)) (by omega) (by omega)
  have hstride := toNat_or_shiftLeft (n := 8) hsent
    (BitVec.toNat_setWidth_of_le (b := s.cnt) (by decide)) (by omega) (by omega)
  exact toNat_or_shiftLeft (n := 16) hstride
    (BitVec.toNat_setWidth_of_le (by decide)) (by omega) (by omega)

/-! ### The configuration of a run -/

/-- R8: no command changes the configuration. -/
theorem cfg_of_exec (h : exec i s = .next t) : t.cfg = s.cfg := by
  obtain ⟨-, ⟨c, -, rfl⟩ | hc⟩ := exec_next_cases h
  · rfl
  · exact (leaves_of_completes hc).cfg

/-- R8: no step changes the configuration. -/
theorem cfg_of_step (h : step s = .next t) : t.cfg = s.cfg := by
  obtain ⟨-, ⟨op, rest, -, rfl⟩ | ⟨i, rest, -, hexec⟩⟩ := step_next_cases h
  · rfl
  · exact cfg_of_exec (s := s.advance rest) hexec

/-! ### The obligations -/

/-- Settles O32: outside FAULT the sum of the fields of STATUS leaves bits 7:6 and 15:12 empty, and
its low two bits are the code of ACTIVE or DONE. -/
theorem readStatusShowsSequencing : Obligations.ReadStatusShowsSequencing := by
  intro s hl
  have hsum := s.status_toNat
  rw [code_toNat_of_live hl] at hsum
  have hphase := flag_le_one (s.phase = .done)
  have hckv := flag_le_one s.ckv
  have hsp := s.sp.isLt
  have hcnt := s.cnt.isLt
  refine ⟨s.status, exec_of_completes hl rfl, hsum, ?_, ?_, ?_⟩
  · rw [BitVec.extractLsb'_toNat, Nat.shiftRight_zero]
    omega
  · rw [extractLsb'_eq_zero_iff]
    omega
  · rw [extractLsb'_eq_zero_iff]
    omega

/-- Settles O33: the sum of the fields of CAP leaves bits 15:9 empty, and CAP is a function of the
configuration, which no step changes. -/
theorem readCapShowsConfiguration : Obligations.ReadCapShowsConfiguration := by
  constructor
  · intro s hl
    have hsum := s.cfg.cap_toNat
    have hvec := flag_le_one s.cfg.hasVector
    have hW := s.cfg.W_range
    refine ⟨s.cfg.cap, exec_of_completes hl rfl, hsum, ?_⟩
    rw [extractLsb'_eq_zero_iff]
    omega
  · intro s t hstep u hread ht
    obtain ⟨-, ⟨c, hraises, -⟩ | rfl⟩ := exec_next_cases hread
    · exact hraises.elim
    · refine ⟨.rsp s.cfg.cap, rfl, ?_⟩
      rw [← cfg_of_step hstep]
      exact exec_of_completes ht rfl

/-- Settles O31: each of the three reads completes by emitting its register; for RD.CK a value must
be latched. -/
theorem readsAnswerRegisters : Obligations.ReadsAnswerRegisters :=
  fun _ hl =>
    ⟨fun v hck => exec_of_completes hl ⟨v, hck, rfl⟩, exec_of_completes hl rfl,
      exec_of_completes hl rfl⟩

end Machine

end Sys2Proof
end

section
/-! PROOFS of the family `45_reference_and_properties.md`: the reference function and its laws
(R113, R117 to R121), the tie between the registers and the reference function (R124), and whole
command streams (R115, R116). -/

namespace Sys2Proof.Machine

/-! ### The reference function and its laws -/

section Reference

variable {seed : Nat × Nat}

/-- R113: the sums of a message go on from those of its first part. -/
theorem a32Sums_append (seed : Nat × Nat) (xs ys : List Byte) :
    a32Sums seed (xs ++ ys) = a32Sums (a32Sums seed xs) ys := List.foldl_append

/-- R113, R119: from reduced sums, reducing once at the end gives the reference function. -/
theorem a32Sums_eq_rawSums_mod (h1 : seed.1 < MOD) (h2 : seed.2 < MOD) (msg : List Byte) :
    a32Sums seed msg = ((rawSums seed msg).1 % MOD, (rawSums seed msg).2 % MOD) := by
  rw [← a32Sums_mod, Nat.mod_eq_of_lt h1, Nat.mod_eq_of_lt h2]

theorem a32Sums_lt (h1 : seed.1 < MOD) (h2 : seed.2 < MOD) (msg : List Byte) :
    (a32Sums seed msg).1 < MOD ∧ (a32Sums seed msg).2 < MOD := by
  rw [a32Sums_eq_rawSums_mod h1 h2]
  exact ⟨mod_MOD_lt _, mod_MOD_lt _⟩

/-- R120: the halves of a checksum are the two sums. -/
theorem halves_a32ref (h1 : seed.1 < MOD) (h2 : seed.2 < MOD) (msg : List Byte) :
    halves (a32ref seed msg) = a32Sums seed msg := by
  obtain ⟨hs1, hs2⟩ := a32Sums_lt h1 h2 msg
  unfold MOD at hs1 hs2
  ext <;> simp only [halves, a32ref] <;> omega

theorem a32ref_lt (h1 : seed.1 < MOD) (h2 : seed.2 < MOD) (msg : List Byte) :
    a32ref seed msg < 2 ^ 32 := by
  obtain ⟨hs1, hs2⟩ := a32Sums_lt h1 h2 msg
  unfold MOD at hs1 hs2
  rw [a32ref]
  omega

theorem adler32_lt (msg : List Byte) : adler32 msg < 2 ^ 32 :=
  a32ref_lt (seed := (1, 0)) (by decide) (by decide) msg

theorem a32Sums_default_lt (msg : List Byte) :
    (a32Sums (1, 0) msg).1 < MOD ∧ (a32Sums (1, 0) msg).2 < MOD :=
  a32Sums_lt (by decide) (by decide) msg

theorem halves_adler32 (msg : List Byte) : halves (adler32 msg) = a32Sums (1, 0) msg :=
  halves_a32ref (by decide) (by decide) msg

/-- R120: the reference function goes on from the checksum of a first part. -/
theorem a32ref_halves_adler32 (A B : List Byte) :
    a32ref (halves (adler32 A)) B = adler32 (A ++ B) := by
  rw [halves_adler32, adler32, a32ref, a32ref, a32Sums_append]

/-- R113: the sums in the residue ring, where nothing need be reduced. -/
theorem cast_a32Sums (h1 : seed.1 < MOD) (h2 : seed.2 < MOD) (msg : List Byte) :
    ((a32Sums seed msg).1 : ZMod MOD) = seed.1 + byteSum msg ∧
      ((a32Sums seed msg).2 : ZMod MOD) =
        seed.2 + msg.length * seed.1 + weightedNat msg.length (msg.map BitVec.toNat) := by
  rw [a32Sums_eq_rawSums_mod h1 h2, rawSums_eq, ZMod.natCast_mod, ZMod.natCast_mod]
  exact ⟨by push_cast; rfl, by push_cast; rfl⟩

/-- R121: the combination law in the residue ring. The second part starts from the sums of the first
instead of from (1, 0), and each of its bytes adds the difference in S1 to S2 once more. -/
theorem cast_a32Sums_append (A B : List Byte) :
    ((a32Sums (1, 0) (A ++ B)).1 : ZMod MOD) =
        (a32Sums (1, 0) A).1 + (a32Sums (1, 0) B).1 - 1 ∧
      ((a32Sums (1, 0) (A ++ B)).2 : ZMod MOD) =
        (a32Sums (1, 0) A).2 + (a32Sums (1, 0) B).2
          + B.length * ((a32Sums (1, 0) A).1 - 1) := by
  obtain ⟨hA1, hA2⟩ := a32Sums_default_lt A
  obtain ⟨hB1, hB2⟩ := cast_a32Sums (seed := (1, 0)) (by decide) (by decide) B
  obtain ⟨hAB1, hAB2⟩ := cast_a32Sums hA1 hA2 B
  rw [a32Sums_append, hAB1, hAB2, hB1, hB2]
  constructor <;> push_cast <;> ring

/-- A reduced number is a remainder exactly when the two agree in the residue ring. -/
theorem eq_mod_iff_cast {x n : Nat} (hx : x < MOD) : x = n % MOD ↔ (x : ZMod MOD) = n := by
  rw [ZMod.natCast_eq_natCast_iff', Nat.mod_eq_of_lt hx]

theorem eq_emod_iff_cast {x : Nat} {z : Int} (hx : x < MOD) :
    (x : Int) = z % 65521 ↔ (x : ZMod MOD) = z := by
  have hreduced : (x : Int) % (MOD : Nat) = x := Int.emod_eq_of_lt (by omega) (by omega)
  have hcast : (x : ZMod MOD) = ((x : Int) : ZMod MOD) := (Int.cast_natCast x).symm
  rw [hcast, ZMod.intCast_eq_intCast_iff', hreduced]
  rfl

/-- R121: the combination law in the exact unsigned form, where adding 65520 subtracts 1. -/
theorem combine_adler32 (A B : List Byte) :
    combine (adler32 A) (adler32 B) B.length = adler32 (A ++ B) := by
  obtain ⟨h1, h2⟩ := a32Sums_default_lt (A ++ B)
  obtain ⟨hsum1, hsum2⟩ := cast_a32Sums_append A B
  have hMOD : (65521 : ZMod MOD) = 0 := ZMod.natCast_self MOD
  have hlow : (a32Sums (1, 0) (A ++ B)).1 =
      ((a32Sums (1, 0) A).1 + (a32Sums (1, 0) B).1 + 65520) % MOD := by
    rw [eq_mod_iff_cast h1, hsum1]
    push_cast
    linear_combination -hMOD
  have hhigh : (a32Sums (1, 0) (A ++ B)).2 =
      ((a32Sums (1, 0) A).2 + (a32Sums (1, 0) B).2
        + B.length % MOD * (((a32Sums (1, 0) A).1 + 65520) % MOD)) % MOD := by
    rw [eq_mod_iff_cast h2, hsum2]
    push_cast [ZMod.natCast_mod]
    linear_combination -(B.length : ZMod MOD) * hMOD
  rw [combine, halves_adler32, halves_adler32, ← hlow, ← hhigh]
  rfl

end Reference

/-! ### The sums over a block, one lane more -/

section Lanes

variable {W : Nat} {lane : List Byte} {lanes : List (List Byte)}

/-- R17: a lane more adds to VA the bytes that came before it. -/
theorem priorSum_append (lanes : List (List Byte)) (lane : List Byte) :
    priorSum (lanes ++ [lane]) = priorSum lanes + byteSum lanes.flatten := by
  have hbefore :
      ((List.range lanes.length).map fun i => byteSum ((lanes ++ [lane]).take i).flatten) =
        (List.range lanes.length).map fun i => byteSum (lanes.take i).flatten := by
    refine List.map_congr_left fun i hi => ?_
    rw [List.take_append_of_le_length (List.mem_range.mp hi).le]
  rw [priorSum, List.length_append, List.length_singleton, List.range_succ, List.map_append,
    List.sum_append, hbefore, priorSum]
  simp

/-- R18: a lane more adds to each column its byte. -/
theorem columnSum_append (lanes : List (List Byte)) (lane : List Byte) (j : Nat) :
    columnSum (lanes ++ [lane]) j = columnSum lanes j + (lane.getD j 0).toNat := by
  simp [columnSum]

/-- R83, R86: the fold of a block by its lanes. -/
theorem exactFold_columnSum (W n s1 s2 va : Nat) (lanes : List (List Byte)) :
    exactFold W n s1 s2 va ((List.range W).map (columnSum lanes)) =
      s2 + n * W * s1 + W * va + ((List.range W).map fun j => (W - j) * columnSum lanes j).sum := by
  rw [exactFold]
  congr 2
  refine List.map_congr_left fun j hj => ?_
  simp [List.mem_range.mp hj]

/-- R86: the weighted sum of some bytes, over their indices. -/
theorem weightedNat_bytes (w : Nat) (bytes : List Byte) :
    weightedNat w (bytes.map BitVec.toNat) =
      ((List.range bytes.length).map fun j => (w - j) * (bytes.getD j 0).toNat).sum := by
  rw [weightedNat_eq_sum, List.length_map]
  congr 1
  refine List.map_congr_left fun j _ => ?_
  exact congrArg ((w - j) * ·) (List.getD_map bytes (0 : Byte) BitVec.toNat)

/-- R89: the fold of a block, from the sums of R16 to R18 over its lanes, forms the sums that
accumulating its bytes one by one with no reduction gives. -/
theorem rawSums_flatten (p : Nat × Nat) (hl : ∀ lane ∈ lanes, lane.length = W) :
    rawSums p lanes.flatten =
      (p.1 + byteSum lanes.flatten,
        exactFold W lanes.length p.1 p.2 (priorSum lanes)
          ((List.range W).map (columnSum lanes))) := by
  induction lanes using List.reverseRecOn with
  | nil => simp [rawSums, exactFold_columnSum, priorSum, columnSum]
  | append_singleton lanes lane ih =>
    have hlane : lane.length = W := hl lane (by simp)
    have hcolumns :
        ((List.range W).map fun j => (W - j) * columnSum (lanes ++ [lane]) j).sum =
          ((List.range W).map fun j => (W - j) * columnSum lanes j).sum
            + weightedNat W (lane.map BitVec.toNat) := by
      simp only [columnSum_append, Nat.mul_add, List.sum_map_add, weightedNat_bytes, hlane]
    rw [List.flatten_append, List.flatten_singleton, rawSums_append,
      ih fun l h => hl l (List.mem_append_left _ h), rawSums_eq, hlane, exactFold_columnSum,
      exactFold_columnSum, hcolumns, priorSum_append, byteSum_append, List.length_append,
      List.length_singleton]
    ext <;> ring

end Lanes

/-! ### The registers and the reference function -/

section Tracks

variable {i : Instr} {s t : State} {p : Nat × Nat} {g : Progress} {lane : List Byte}
  {lanes : List (List Byte)}

/-- R124: S1 and S2 stand for a pair of sums: they have its residues, and are equal to it when no
stride is pending. -/
structure State.Represents (s : State) (p : Nat × Nat) : Prop where
  residue_s1 : s.s1.toNat % MOD = p.1
  residue_s2 : s.s2.toNat % MOD = p.2
  exactSums : s.cnt = 0 → s.s1.toNat = p.1 ∧ s.s2.toNat = p.2

/-- R15 to R18: the registers of the pending block hold the sums over these lanes. -/
structure State.HoldsLanes (s : State) (lanes : List (List Byte)) : Prop where
  count : lanes.length = s.vn.toNat
  width : ∀ lane ∈ lanes, lane.length = s.cfg.W
  blockSum : s.vs.toNat = byteSum lanes.flatten
  priorBytes : s.va.toNat = priorSum lanes
  columns : s.vc.map BitVec.toNat = (List.range s.cfg.W).map (columnSum lanes)

theorem State.tracks_iff :
    s.Tracks g ↔ ∃ head lanes, g.msg = head ++ lanes.flatten ∧ s.HoldsLanes lanes ∧
      s.Represents (a32Sums g.seed head) := by
  constructor
  · rintro ⟨head, lanes, hmsg, hcount, hwidth, hs1, hs2, hexact, hvs, hva, hvc⟩
    exact ⟨head, lanes, hmsg, ⟨hcount, hwidth, hvs, hva, hvc⟩, ⟨hs1, hs2, hexact⟩⟩
  · rintro ⟨head, lanes, hmsg, ⟨hcount, hwidth, hvs, hva, hvc⟩, ⟨hs1, hs2, hexact⟩⟩
    exact ⟨head, lanes, hmsg, hcount, hwidth, hs1, hs2, hexact, hvs, hva, hvc⟩

namespace State.Represents

/-- Sums equal to a reduced pair stand for it. -/
theorem of_eq (h : (s.s1.toNat, s.s2.toNat) = p) (h1 : p.1 < MOD) (h2 : p.2 < MOD) :
    s.Represents p := by
  subst h
  exact ⟨Nat.mod_eq_of_lt h1, Nat.mod_eq_of_lt h2, fun _ => ⟨rfl, rfl⟩⟩

/-- The pair that the sums stand for is reduced. -/
theorem lt (h : s.Represents p) : p.1 < MOD ∧ p.2 < MOD :=
  ⟨h.residue_s1 ▸ mod_MOD_lt _, h.residue_s2 ▸ mod_MOD_lt _⟩

/-- With no stride pending the sums are the pair they stand for. -/
theorem eq (h : s.Represents p) (hc : s.cnt = 0) : (s.s1.toNat, s.s2.toNat) = p :=
  Prod.ext (h.exactSums hc).1 (h.exactSums hc).2

/-- R70: REDUCE leaves the pair that the sums stand for. -/
theorem reduce (h : s.Represents p) : s.reduce.Represents p :=
  have hs1 := (Machine.reduce_s1 s).trans h.residue_s1
  have hs2 := (Machine.reduce_s2 s).trans h.residue_s2
  of_eq (Prod.ext hs1 hs2) h.lt.1 h.lt.2

/-- R71, R113: ACC1 does one byte of the reference function. -/
theorem acc1 (h : s.Represents p) (hinv : s.SumInv) (b : Byte) :
    (s.acc1 b).Represents (a32Step p b) := by
  have hs1 : (s.s1.toNat + b.toNat) % MOD = (a32Step p b).1 := by
    simp [a32Step, ← h.residue_s1]
  have hs2 : (s.s2.toNat + (s.s1.toNat + b.toNat)) % MOD = (a32Step p b).2 := by
    simp [a32Step, ← h.residue_s1, ← h.residue_s2]
  by_cases hc : s.cnt.toNat = 15
  · obtain ⟨e1, e2, -⟩ := hinv.acc1_sums_last b hc
    exact of_eq (Prod.ext (e1.trans hs1) (e2.trans hs2)) (mod_MOD_lt _) (mod_MOD_lt _)
  · have hlt : s.cnt.toNat < 15 := by have := s.cnt.isLt; omega
    obtain ⟨e1, e2, ecnt⟩ := hinv.acc1_sums_within b hlt
    refine ⟨by rw [e1, hs1], by rw [e2, hs2], fun h0 => ?_⟩
    rw [h0] at ecnt
    exact absurd ecnt (Nat.succ_ne_zero _).symm

/-- R85, R113: the fall-back does the bytes of its lane one by one. -/
theorem absorbBytes (h : s.Represents p) (hinv : s.SumInv) (hv : s.vn = 0) (bytes : List Byte) :
    (s.absorbBytes bytes).Represents (a32Sums p bytes) := by
  unfold State.absorbBytes
  induction bytes generalizing s p with
  | nil => exact h
  | cons b bs ih => exact ih (h.acc1 hinv b) (hinv.acc1 hv b) (by simp [hv])

end State.Represents

namespace State.HoldsLanes

/-- R19 (a): an empty block holds no lanes. -/
theorem nil (hinv : s.SumInv) (hv : s.vn = 0) : s.HoldsLanes [] := by
  obtain ⟨hvs, hva, hvc⟩ := hinv.empty hv
  have hzero : columnSum [] = fun _ => 0 := rfl
  exact ⟨by simp [hv], by simp, by simp [hvs], by simp [hva, priorSum], by simp [hvc, hzero]⟩

theorem eq_nil (h : s.HoldsLanes lanes) (hv : s.vn = 0) : lanes = [] :=
  List.length_eq_zero_iff.mp (by rw [h.count, hv]; rfl)

/-- R82: VACC adds its lane to the block. -/
theorem vacc (h : s.HoldsLanes lanes) (hb : Block s) (hl : lane.length = s.cfg.W)
    (hroom : s.vn.toNat < s.cfg.lanesMax) : (s.vacc lane).HoldsLanes (lanes ++ [lane]) where
  count := by rw [Block.vacc_vn hroom, List.length_append, h.count, List.length_singleton]
  width := List.forall_mem_append.mpr ⟨h.width, by simpa using hl⟩
  blockSum := by rw [hb.vacc_vs hl, h.blockSum]; simp
  priorBytes := by rw [hb.vacc_va hroom, h.priorBytes, h.blockSum, priorSum_append]
  columns := by
    have hvc : s.vc.length = s.cfg.W := hb.columns
    rw [hb.vacc_vc hl]
    refine List.ext_getElem (by simp [hvc, hl]) fun j hj _ => ?_
    have hjW : j < s.cfg.W := by simpa [hvc, hl] using hj
    have hcolumn : s.vc[j].toNat = columnSum lanes j := by
      have := congrArg (·[j]?) h.columns
      simpa [hvc, hjW] using this
    simp [columnSum_append, hcolumn, hl, hjW]

/-- R83, R89: the fold of the block forms the sums that its bytes one by one form. -/
theorem pendingSums (h : s.HoldsLanes lanes) :
    s.pendingSums = rawSums (s.s1.toNat, s.s2.toNat) lanes.flatten := by
  rw [rawSums_flatten _ h.width, State.pendingSums, h.blockSum, h.priorBytes, h.columns, h.count]

/-- R89: the residues of the pending sums are the reference function over the lanes. -/
theorem pendingSums_mod (h : s.HoldsLanes lanes) (hr : s.Represents p) (hc : s.cnt = 0) :
    (s.pendingSums.1 % MOD, s.pendingSums.2 % MOD) = a32Sums p lanes.flatten := by
  rw [h.pendingSums, hr.eq hc, ← a32Sums_eq_rawSums_mod hr.lt.1 hr.lt.2]

/-- R83, R113: VFOLD does the bytes of the block. -/
theorem vfold (h : s.HoldsLanes lanes) (hr : s.Represents p) (hb : Block s) (hc : s.cnt = 0) :
    s.vfold.Represents (a32Sums p lanes.flatten) := by
  have hlt := a32Sums_lt hr.lt.1 hr.lt.2 lanes.flatten
  exact .of_eq (hb.vfold_pendingSums.trans (h.pendingSums_mod hr hc)) hlt.1 hlt.2

end State.HoldsLanes

namespace State.Tracks

/-- With no block pending, S1 and S2 stand for the sums of the whole message. -/
theorem of_represents (hinv : s.SumInv) (hv : s.vn = 0)
    (h : s.Represents (a32Sums g.seed g.msg)) : s.Tracks g :=
  tracks_iff.mpr ⟨g.msg, [], (List.append_nil _).symm, .nil hinv hv, h⟩

theorem represents (h : s.Tracks g) (hv : s.vn = 0) : s.Represents (a32Sums g.seed g.msg) := by
  obtain ⟨head, lanes, hmsg, hlanes, hr⟩ := tracks_iff.mp h
  obtain rfl := hlanes.eq_nil hv
  rwa [hmsg, List.flatten_nil, List.append_nil]

/-- The tie reads neither the latch, the phase nor the fault record, nor CMD and the trace: any
write to these alone keeps it. -/
theorem of_control_write (h : s.Tracks g) (ck : Option Word) (sp : Fin 5) (phase : Phase)
    (err : BitVec 16) (cmd : List Byte) (out : List OutEvent) :
    State.Tracks
      { s with ck := ck, sp := sp, phase := phase, err := err, cmd := cmd, out := out } g := h

/-- R61, R62: a computation started from reduced sums has them as its seed and no message. -/
theorem start (s : State) {a b : Word} (ha : a.toNat < MOD) (hb : b.toNat < MOD) :
    (s.start a b).Tracks ⟨(a.toNat, b.toNat), []⟩ :=
  of_represents (sumInv_start s ha hb) rfl (.of_eq rfl ha hb)

/-- R72, R96: with a pending block folded, S1 and S2 stand for the sums of the whole message. -/
theorem foldPending (h : s.Tracks g) (hinv : s.SumInv) :
    s.foldPending.Represents (a32Sums g.seed g.msg) := by
  by_cases hv : s.vn = 0
  · rw [foldPending_of_none hv]
    exact h.represents hv
  · obtain ⟨head, lanes, hmsg, hlanes, hr⟩ := tracks_iff.mp h
    have hc := hinv.exclusive hv
    rw [foldPending_of_block hv, hmsg, a32Sums_append]
    exact hlanes.vfold hr (hinv.block hc) hc

/-- R96: FIN finalises the sums of the whole message. -/
theorem settle (h : s.Tracks g) (hinv : s.SumInv) :
    (s.settle.s1.toNat, s.settle.s2.toNat) = a32Sums g.seed g.msg :=
  (h.foldPending hinv).reduce.eq rfl

/-- R84: VABS with the vector path extends the message by its lane, parked in the block or folded
with the block it fills. -/
theorem absorbLane (h : s.Tracks g) (hinv : s.SumInv) (hl : lane.length = s.cfg.W) :
    (s.absorbLane lane).Tracks ⟨g.seed, g.msg ++ lane⟩ := by
  obtain ⟨head, lanes, hmsg, hlanes, hr⟩ := tracks_iff.mp h
  have hmsg' : g.msg ++ lane = head ++ (lanes ++ [lane]).flatten := by simp [hmsg]
  obtain hroom | hfull : s.vn.toNat + 1 < s.cfg.lanesMax ∨ s.vn.toNat + 1 = s.cfg.lanesMax :=
    Nat.lt_or_eq_of_le hinv.lanes
  · have hreduced : s.reduce.HoldsLanes lanes := { hlanes with }
    have hblock : Block s.reduce := hinv.reducePending_eq_reduce ▸ hinv.reducePending.1
    rw [hinv.absorbLane_of_room hroom]
    exact tracks_iff.mpr ⟨head, lanes ++ [lane], hmsg', hreduced.vacc hblock hl hinv.lanes,
      { hr.reduce with }⟩
  · obtain ⟨hc, habsorb⟩ := hinv.absorbLane_of_full (lane := lane) hfull
    have hblock := hinv.block hc
    have hparked : (s.vacc lane).Represents (a32Sums g.seed head) := { hr with }
    rw [habsorb]
    refine of_represents (sumInv_vfold _) rfl ?_
    rw [hmsg', a32Sums_append]
    exact (hlanes.vacc hblock hl hinv.lanes).vfold hparked (hblock.vacc hl hinv.lanes) hc

/-- R124: every command that completes keeps the tie. -/
theorem of_completes (h : s.Tracks g) (hinv : s.SumInv) (hcomp : Completes i s t) :
    t.Tracks (g.after i) := by
  have hinv' := hinv.of_completes hcomp
  cases i with
  | nop => obtain rfl := hcomp; exact h
  | init => obtain rfl := hcomp; exact start s (by decide) (by decide)
  | seed v =>
    obtain ⟨hv, rfl⟩ := hcomp
    obtain ⟨hlo, hhi⟩ := seed_halves_lt hv
    have hstart := start s hlo hhi
    rw [BitVec.toNat_setWidth_of_le (by decide), BitVec.toNat_setWidth_of_le (by decide)] at hstart
    rwa [Progress.after, if_pos hv]
  | abs b =>
    obtain ⟨-, rfl⟩ := hcomp
    obtain ⟨hfolded, hv⟩ := hinv.foldPending
    refine of_represents hinv' (by simp [hv]) ?_
    rw [Progress.after, a32Sums_append]
    exact (h.foldPending hinv).acc1 hfolded b
  | vabs lane =>
    obtain ⟨-, hl, rfl⟩ := hcomp
    by_cases hvec : s.cfg.hasVector = true
    · rw [if_pos hvec]
      exact h.absorbLane hinv hl
    · have hv : s.vn = 0 := hinv.noVector (by simpa using hvec)
      rw [if_neg hvec] at hinv' ⊢
      refine of_represents hinv' (by rw [absorbBytes_frame]; exact hv) ?_
      rw [Progress.after, a32Sums_append]
      exact (h.represents hv).absorbBytes hinv hv lane
  | fin =>
    obtain ⟨-, rfl⟩ := hcomp
    have hsettled : s.settle.Tracks g :=
      of_represents hinv.settle hinv.foldPending.2 (h.foldPending hinv).reduce
    exact hsettled.of_control_write ..
  | setck v => obtain rfl := hcomp; exact h.of_control_write ..
  | ser => obtain ⟨v, b, -, -, rfl⟩ := hcomp; exact h.of_control_write ..
  | rdCk => obtain ⟨v, -, rfl⟩ := hcomp; exact h.of_control_write ..
  | rdS1 => obtain rfl := hcomp; exact h.of_control_write ..
  | rdS2 => obtain rfl := hcomp; exact h.of_control_write ..
  | rdStatus => obtain rfl := hcomp; exact h.of_control_write ..
  | rdCap => obtain rfl := hcomp; exact h.of_control_write ..

/-- R96, R113, R124: FIN latches the value of the reference function and leaves its sums. -/
theorem completes_fin (h : s.Tracks g) (hinv : s.SumInv) (ha : s.phase = .active) :
    ∃ t, Completes .fin s t ∧ t.ck = some (BitVec.ofNat 32 (a32ref g.seed g.msg)) ∧
      t.s1.toNat = (a32Sums g.seed g.msg).1 ∧ t.s2.toNat = (a32Sums g.seed g.msg).2 := by
  have hs1 := congrArg Prod.fst (h.settle hinv)
  have hs2 := congrArg Prod.snd (h.settle hinv)
  refine ⟨_, ⟨ha, rfl⟩, ?_, hs1, hs2⟩
  rw [a32ref, ← hs1, ← hs2, ← finalize_settle]
  rfl

end State.Tracks

end Tracks

/-! ### Command streams -/

section Streams

variable {i start : Instr} {s t : State} {g : Progress} {seed : Nat × Nat} {is cmds : List Instr}

/-- What executes one after another, taken apart at the first command. -/
theorem execAll_cons_next (h : execAll (i :: is) s = .next t) :
    ∃ u, exec i s = .next u ∧ execAll is u = .next t := by
  cases hexec : exec i s with
  | next u => exact ⟨u, rfl, by simpa [execAll, hexec] using h⟩
  | fault r => simp [execAll, hexec] at h
  | refused r => simp [execAll, hexec] at h

/-- The commands behind some that all execute do so in the state these lead to. -/
theorem execAll_append_of_next (h : execAll is s = .next t) (js : List Instr) :
    execAll (is ++ js) s = execAll js t := by
  induction is generalizing s with
  | nil => cases h; rfl
  | cons i is ih =>
    obtain ⟨u, hexec, hrest⟩ := execAll_cons_next h
    rw [List.cons_append, execAll, hexec]
    exact ih hrest

/-- R31: what commands answer moves with the bytes left on CMD. -/
theorem execAll_advance (r : List Byte) (h : execAll is s = .next t) :
    execAll is (s.advance r) = .next (t.advance r) := by
  induction is generalizing s with
  | nil => cases h; rfl
  | cons i is ih =>
    obtain ⟨u, hexec, hrest⟩ := execAll_cons_next h
    rw [execAll, exec_advance r hexec]
    exact ih hrest

theorem run_succ_of_step (n : Nat) (h : step s = .next t) :
    Host.Core.run Sys2Proof.core (n + 1) s = Host.Core.run Sys2Proof.core n t := by
  have hstep : Sys2Proof.core.step s = .next t := h
  simp only [Host.Core.run, hstep]

/-- R45, R130: the stream of well-formed commands that execute one after another runs to its end,
one step for each command. -/
theorem run_encodeAll (hwf : ∀ i ∈ is, i.wf s.cfg = true) (hcmd : s.cmd = encodeAll is)
    (h : execAll is s = .next t) :
    Host.Core.run Sys2Proof.core is.length s = .next (t.advance []) := by
  induction is generalizing s t with
  | nil =>
    cases h
    have hempty : s = s.advance [] := congrArg (fun r => s.advance r) hcmd
    rw [← hempty]
    rfl
  | cons i is ih =>
    obtain ⟨u, hexec, hrest⟩ := execAll_cons_next h
    obtain ⟨hwf_i, hwf_is⟩ := List.forall_mem_cons.mp hwf
    have hfetch : s.fetch = .packet i (encodeAll is) := decode_packet_iff.mpr ⟨hwf_i, hcmd⟩
    have hstep : step s = .next (u.advance (encodeAll is)) := by
      rw [step_of_packet (exec_next_cases hexec).1 hfetch, exec_advance _ hexec]
    rw [List.length_cons, run_succ_of_step _ hstep]
    refine ih (t := t.advance (encodeAll is)) ?_ rfl (execAll_advance _ hrest)
    rw [State.advance_cfg, cfg_of_exec hexec]
    exact hwf_is

/-- R153: a live state with no byte left on CMD is a normal end. -/
theorem State.runEnd_advance_nil (hl : t.phase ≠ .fault) :
    (t.advance []).runEnd = some .normal := by
  cases hp : t.phase with
  | fault => exact absurd hp hl
  | active => simp [State.runEnd, hp, State.fetch, decode]
  | done => simp [State.runEnd, hp, State.fetch, decode]

/-- R124: a computation under way: ACTIVE, with the registers at this progress. -/
structure State.Computing (s : State) (g : Progress) : Prop where
  active : s.phase = .active
  sumInv : s.SumInv
  tracks : s.Tracks g

/-- R61, R62: what a command that starts a computation does. -/
theorem completes_of_starts (h : Starts start seed) :
    ∃ a b : Word, (a.toNat, b.toNat) = seed ∧ a.toNat < MOD ∧ b.toNat < MOD ∧
      ∀ s, Completes start s (s.start a b) := by
  obtain ⟨rfl, rfl⟩ | ⟨v, rfl, hv, rfl⟩ := h
  · exact ⟨1, 0, rfl, by decide, by decide, fun _ => rfl⟩
  · obtain ⟨hlo, hhi⟩ := seed_halves_lt hv
    refine ⟨_, _, ?_, hlo, hhi, fun _ => ⟨hv, rfl⟩⟩
    rw [BitVec.toNat_setWidth_of_le (by decide), BitVec.toNat_setWidth_of_le (by decide)]

theorem seed_lt_of_starts (h : Starts start seed) : seed.1 < MOD ∧ seed.2 < MOD := by
  obtain ⟨a, b, rfl, ha, hb, -⟩ := completes_of_starts h
  exact ⟨ha, hb⟩

theorem wf_of_starts (h : Starts start seed) (c : Config) : start.wf c = true := by
  obtain ⟨rfl, -⟩ | ⟨v, rfl, -⟩ := h <;> rfl

/-- R61, R62: a start command begins a computation from its seed. -/
theorem exec_of_starts (hl : s.phase ≠ .fault) (h : Starts start seed) :
    ∃ t, exec start s = .next t ∧ t.Computing ⟨seed, []⟩ ∧ t.cfg = s.cfg ∧ t.out = s.out := by
  obtain ⟨a, b, rfl, ha, hb, hcomp⟩ := completes_of_starts h
  exact ⟨_, exec_of_completes hl (hcomp s),
    ⟨rfl, sumInv_start s ha hb, State.Tracks.start s ha hb⟩, rfl, rfl⟩

/-- R115: the commands that absorb message bytes. -/
theorem absorbs_iff : absorbs i = true ↔ (∃ b, i = .abs b) ∨ ∃ lane, i = .vabs lane := by
  cases i <;> simp [absorbs]

namespace State.Computing

theorem live (h : s.Computing g) : s.phase ≠ .fault := by simp [h.active]

/-- R72, R84, R85: a message command executes and extends the message of the computation. -/
theorem exec_of_absorbs (h : s.Computing g) (habs : absorbs i = true) (hwf : i.wf s.cfg = true) :
    ∃ t, exec i s = .next t ∧ t.Computing ⟨g.seed, g.msg ++ absorbed i⟩ ∧ t.cfg = s.cfg ∧
      t.out = s.out := by
  obtain ⟨⟨t, hcomp⟩, hafter, hphase, hser, hread⟩ :
      (∃ t, Completes i s t) ∧ g.after i = ⟨g.seed, g.msg ++ absorbed i⟩ ∧
        i.opcode ∉ [.init, .seed, .fin] ∧ i ≠ .ser ∧
        i.opcode ∉ [.rdCk, .rdS1, .rdS2, .rdStatus, .rdCap] := by
    obtain ⟨b, rfl⟩ | ⟨lane, rfl⟩ := absorbs_iff.mp habs
    · exact ⟨⟨_, h.active, rfl⟩, rfl, by simp [Instr.opcode]⟩
    · exact ⟨⟨_, h.active, lane_length_of_wf hwf, rfl⟩, rfl, by simp [Instr.opcode]⟩
  have hleaves := leaves_of_completes hcomp
  exact ⟨t, exec_of_completes h.live hcomp,
    ⟨(hleaves.phase hphase).trans h.active, h.sumInv.of_completes hcomp,
      hafter ▸ h.tracks.of_completes h.sumInv hcomp⟩,
    hleaves.cfg, out_of_completes_silent hcomp hser hread⟩

/-- R32, R115: message commands extend the message one after another. -/
theorem execAll_of_absorbs (h : s.Computing g)
    (hcmds : ∀ i ∈ cmds, absorbs i = true ∧ i.wf s.cfg = true) :
    ∃ t, execAll cmds s = .next t ∧ t.Computing ⟨g.seed, g.msg ++ message cmds⟩ ∧
      t.out = s.out := by
  induction cmds generalizing s g with
  | nil => exact ⟨s, rfl, by rw [message, List.flatMap_nil, List.append_nil]; exact h, rfl⟩
  | cons i cmds ih =>
    obtain ⟨⟨habs, hwf⟩, hcmds⟩ := List.forall_mem_cons.mp hcmds
    obtain ⟨u, hexec, hu, hcfg, hout⟩ := h.exec_of_absorbs habs hwf
    obtain ⟨t, hrest, ht, hout'⟩ := ih hu (by rw [hcfg]; exact hcmds)
    refine ⟨t, by rw [execAll, hexec]; exact hrest, ?_, hout'.trans hout⟩
    rw [message_cons, ← List.append_assoc]
    exact ht

end State.Computing

/-- R113, R115: a start command, message commands and FIN execute from any state outside FAULT, and
latch the reference function at the seed and the message. -/
theorem execAll_latches_reference (hl : s.phase ≠ .fault) (hstart : Starts start seed)
    (hcmds : ∀ i ∈ cmds, absorbs i = true ∧ i.wf s.cfg = true) :
    ∃ t, execAll (start :: cmds ++ [Instr.fin]) s = .next t ∧ t.phase = .done ∧
      t.ck = some (BitVec.ofNat 32 (a32ref seed (message cmds))) ∧ t.out = s.out := by
  obtain ⟨u, hexec, hu, hcfg, hout⟩ := exec_of_starts hl hstart
  obtain ⟨v, hmsg, hv, hout'⟩ := hu.execAll_of_absorbs (by rw [hcfg]; exact hcmds)
  obtain ⟨t, hfin, hck, -, -⟩ := hv.tracks.completes_fin hv.sumInv hv.active
  refine ⟨t, ?_, ((leaves_of_completes hfin).finPhase rfl).2, hck, ?_⟩
  · rw [List.cons_append, execAll, hexec]
    simp only [execAll_append_of_next hmsg, execAll, exec_of_completes hv.live hfin]
  · rw [out_of_completes_silent hfin (by simp) (by simp [Instr.opcode]), hout', hout]

/-- R106: RD.CK behind FIN answers the value of the reference function. -/
theorem execAll_answers_reference (hl : s.phase ≠ .fault) (hstart : Starts start seed)
    (hcmds : ∀ i ∈ cmds, absorbs i = true ∧ i.wf s.cfg = true) :
    ∃ t, execAll (start :: cmds ++ [Instr.fin, Instr.rdCk]) s = .next t ∧ t.phase = .done ∧
      t.out = s.out ++ [OutEvent.rsp (BitVec.ofNat 32 (a32ref seed (message cmds)))] := by
  obtain ⟨t, hexec, hdone, hck, hout⟩ := execAll_latches_reference hl hstart hcmds
  generalize BitVec.ofNat 32 (a32ref seed (message cmds)) = v at hck ⊢
  have hread : Completes .rdCk t (t.emit (.rsp v)) := ⟨v, hck, rfl⟩
  have hsplit : start :: cmds ++ [Instr.fin, Instr.rdCk] =
      (start :: cmds ++ [Instr.fin]) ++ [Instr.rdCk] := by simp
  refine ⟨t.emit (.rsp v), ?_, hdone, by rw [State.emit_out, hout]⟩
  rw [hsplit, execAll_append_of_next hexec, execAll_cons_of_completes (by simp [hdone]) hread,
    execAll]

/-- R113, R120: the checksum of a first part is a legal seed, which its halves are. -/
theorem starts_adler32 (A : List Byte) :
    Starts (.seed (BitVec.ofNat 32 (adler32 A))) (halves (adler32 A)) := by
  have hvalue : (BitVec.ofNat 32 (adler32 A)).toNat = adler32 A := by
    rw [BitVec.toNat_ofNat, Nat.mod_eq_of_lt (adler32_lt A)]
  have hlo := lo16_setWidth_toNat (BitVec.ofNat 32 (adler32 A))
  have hhi := hi16_setWidth_toNat (BitVec.ofNat 32 (adler32 A))
  rw [BitVec.toNat_setWidth_of_le (by decide), hvalue] at hlo hhi
  have hlt := a32Sums_default_lt A
  rw [← halves_adler32] at hlt
  have hlegal := seedLegal_iff.mpr (hvalue.symm ▸ hlt.symm)
  exact .inr ⟨_, rfl, hlegal, Prod.ext hlo.symm hhi.symm⟩

end Streams

/-! ### The obligations -/

/-- Settles O46: a command that ends outside FAULT completed, and each that completes keeps the
tie. -/
theorem commandsKeepTracks : Obligations.CommandsKeepTracks :=
  fun _ _ _ _ hinv h hexec hl => h.of_completes hinv (completes_of_exec_live hexec hl)

/-- Settles O45: reset has started the computation from the sums of INIT. -/
theorem tracksAtReset : Obligations.TracksAtReset :=
  fun c => State.Tracks.start (State.resetOf c) (a := 1) (b := 0) (by decide) (by decide)

/-- Settles O47: FIN completes in ACTIVE, and latches what it settles. -/
theorem finLatchesReference : Obligations.FinLatchesReference := by
  intro s g hinv h ha
  obtain ⟨t, hfin, hlatched⟩ := h.completes_fin hinv ha
  exact ⟨t, exec_of_completes (by simp [ha]) hfin, hlatched⟩

/-- Settles O49: the commands of the stream execute one after another, and the run is theirs. -/
theorem anyMixedStreamAnswersReference : Obligations.AnyMixedStreamAnswersReference := by
  intro s start seed cmds hl hstart hcmds hcmd
  obtain ⟨t, hexec, hdone, hout⟩ := execAll_answers_reference hl hstart hcmds
  obtain ⟨h1, h2⟩ := seed_lt_of_starts hstart
  have hwf : ∀ i ∈ start :: cmds ++ [Instr.fin, Instr.rdCk], Instr.wf s.cfg i = true := by
    simp only [List.cons_append, List.forall_mem_cons, List.forall_mem_append]
    exact ⟨wf_of_starts hstart _, fun i hi => (hcmds i hi).2, rfl, rfl, by simp⟩
  have hlength : (start :: cmds ++ [Instr.fin, Instr.rdCk]).length = cmds.length + 3 := by simp
  have hrun := run_encodeAll hwf hcmd hexec
  rw [hlength] at hrun
  exact ⟨_, hrun, State.runEnd_advance_nil (by simp [hdone]), hdone, a32ref_lt h1 h2 _, hout⟩

/-- Settles O48: the stream of CHECKSUM starts with INIT and its VDATA are message commands that
carry the bytes. -/
theorem checksumStreamAnswersAdler32 : Obligations.ChecksumStreamAnswersAdler32 := by
  intro s bytes hl hcmd
  obtain ⟨-, hmsg, hcmds, -⟩ := pseudoInstructionsCarryTheirBytes s.cfg bytes
  have hstream := anyMixedStreamAnswersReference s .init (1, 0) _ hl (.inl ⟨rfl, rfl⟩) hcmds hcmd
  rw [hmsg] at hstream
  have hlength : (Assembler.checksum s.cfg bytes).length =
      (Assembler.vdata s.cfg bytes).length + 3 := by simp [Assembler.checksum]
  rw [hlength]
  exact hstream

/-- Settles O50: either cut latches the reference function at the one seed and message. -/
theorem cutOfMessageIrrelevant : Obligations.CutOfMessageIrrelevant := by
  intro s s' start seed cmds cmds' hl hl' hstart hcmds hcmds' hmsg
  obtain ⟨t, hexec, -, hck, -⟩ := execAll_latches_reference hl hstart hcmds
  obtain ⟨t', hexec', -, hck', -⟩ := execAll_latches_reference hl' hstart hcmds'
  exact ⟨t, t', hexec, hexec', by rw [hck, hck', hmsg], by simp [hck]⟩

/-- Settles O52: the checksum of the first part is the seed that its halves are, and DATA are
message commands that carry the second part. -/
theorem continuationFromChecksum : Obligations.ContinuationFromChecksum := by
  refine fun A B => ⟨a32ref_halves_adler32 A B, fun s hl => ?_⟩
  obtain ⟨t, hexec, -, hck, -⟩ := execAll_latches_reference hl (starts_adler32 A)
    fun _ hi => absorbs_and_wf_of_mem_data hi
  rw [message_data, a32ref_halves_adler32] at hck
  exact ⟨t, hexec, hck⟩

/-- Settles O53: both forms are the law of the residue ring, read back at reduced numbers. -/
theorem combinationLaw : Obligations.CombinationLaw := by
  refine fun A B => ⟨combine_adler32 A B, ?_⟩
  obtain ⟨h1, h2⟩ := a32Sums_default_lt (A ++ B)
  obtain ⟨hsum1, hsum2⟩ := cast_a32Sums_append A B
  simp only [halves_adler32]
  rw [eq_emod_iff_cast h1, eq_emod_iff_cast h2, hsum1, hsum2]
  exact ⟨by push_cast; rfl, by push_cast; rfl⟩

/-- Settles O54: the unreduced sums have a closed form, and their residues are the reference
function's. -/
theorem referenceClosedForm : Obligations.ReferenceClosedForm := by
  intro a b msg ha hb
  rw [a32Sums_eq_rawSums_mod ha hb, rawSums_eq, weightedNat_bytes]
  rfl

/-- Settles O55: reducing after a part gives the reference function's sums over it, which are
reduced and go on over the parts behind. -/
theorem reductionCadenceIrrelevant : Obligations.ReductionCadenceIrrelevant := by
  intro seed parts h1 h2
  induction parts generalizing seed with
  | nil => rfl
  | cons part parts ih =>
    obtain ⟨h1', h2'⟩ := a32Sums_lt h1 h2 part
    rw [List.flatten_cons, a32Sums_append, ← ih _ h1' h2', a32Sums_eq_rawSums_mod h1 h2]
    rfl

/-- Settles O51: the streams are those of the empty and the one-byte message, whose checksums need
no reduction. -/
theorem emptyAndSingleByteChecksums : Obligations.EmptyAndSingleByteChecksums := by
  intro s hl
  constructor
  · obtain ⟨t, hexec, -, hout⟩ :=
      execAll_answers_reference (cmds := []) hl (.inl ⟨rfl, rfl⟩) (by simp)
    exact ⟨t, hexec, hout⟩
  · intro v
    obtain ⟨t, hexec, -, hout⟩ :=
      execAll_answers_reference (cmds := [.abs v]) hl (.inl ⟨rfl, rfl⟩)
        (by simp [absorbs, Instr.wf])
    have hv := v.isLt
    have hvalue : a32ref (1, 0) [v] = (1 + v.toNat) * 65536 + (1 + v.toNat) := by
      have hreduced : (1 + v.toNat) % MOD = 1 + v.toNat := Nat.mod_eq_of_lt (by unfold MOD; omega)
      simp [a32ref, a32Sums, a32Step, hreduced]
    exact ⟨t, hexec, hvalue ▸ hout⟩

end Sys2Proof.Machine
end

section
/-! PROOFS of the family `60_exceptions.md`: what a fault entry writes (R131), when a command
takes one (R132), each of the five faults with the accepted inputs next to it (R133 to R137), and
FAULT itself (R130, R142). -/

namespace Sys2Proof.Machine

variable {i : Instr} {s t : State} {v : Word}

/-! ### When a command raises a fault -/

/-- R132: a command enters FAULT exactly when it raises one of its faults. -/
theorem fault_iff_raises (h : exec i s = .next t) : t.phase = .fault ↔ ∃ c, Raises i s c := by
  obtain ⟨hl, ⟨c, hr, rfl⟩ | hc⟩ := exec_next_cases h
  · exact ⟨fun _ => ⟨c, hr⟩, fun _ => rfl⟩
  · refine ⟨fun ht => absurd ht (live_of_completes hl hc), ?_⟩
    rintro ⟨c, hr⟩
    obtain rfl : s.raise i.opcode.byte c = t := by simpa [exec_of_raises hl hr] using h
    rfl

/-- R135: the range check of SEED fails at a half of 65521 or more. -/
theorem seedLegal_eq_false_iff :
    seedLegal v = false ↔ MOD ≤ v.toNat / 65536 ∨ MOD ≤ v.toNat % 65536 := by
  rw [← Bool.not_eq_true, seedLegal_iff, not_and_or, Nat.not_lt, Nat.not_lt]

/-- R137: BE32(CK) has no byte left exactly when its four bytes have been sent. -/
theorem be32_getElem?_eq_none_iff (v : Word) (sp : Fin 5) : (be32 v)[sp.val]? = none ↔ sp = 4 := by
  have hsp := sp.isLt
  rw [List.getElem?_eq_none_iff, be32_length, Fin.ext_iff]
  change 4 ≤ sp.val ↔ sp.val = 4
  omega

/-- R136, R137: SER raises a fault when no checksum is latched, or when all of it has been sent. -/
theorem exists_raises_ser_iff :
    (∃ c, Raises .ser s c) ↔ s.ck = none ∨ (s.ck ≠ none ∧ s.sp = 4) := by
  simp only [Raises, be32_getElem?_eq_none_iff]
  cases s.ck <;> simp

/-- R132: the list of causes, as a condition on a well-formed command and the state it finds. -/
theorem exists_raises_iff (hwf : i.wf s.cfg = true) :
    (∃ c, Raises i s c) ↔
      (s.phase = .done ∧ i.opcode ∈ [.abs, .vabs, .fin]) ∨
      (∃ v : Word, i = .seed v ∧ (MOD ≤ v.toNat / 65536 ∨ MOD ≤ v.toNat % 65536)) ∨
      (s.ck = none ∧ i.opcode ∈ [.ser, .rdCk]) ∨
      (s.ck ≠ none ∧ s.sp = 4 ∧ i = .ser) := by
  cases i with
  | seed v => simp [Raises, Instr.opcode, seedLegal_eq_false_iff]
  | abs | fin => simp [Raises, Instr.opcode]
  | vabs lane => simp [Raises, Instr.opcode, lane_length_of_wf hwf]
  | ser => simp [exists_raises_ser_iff, Instr.opcode]
  | rdCk => simp [Raises, Instr.opcode]
  | nop | init | setck | rdS1 | rdS2 | rdStatus | rdCap => simp [Raises, Instr.opcode]

/-! ### What a step writes when it takes a fault -/

/-- R131, R132: a step from `s` to `t` entered FAULT: it wrote CMD, ERR and PHASE alone, and the
record is one of those listed. -/
structure FaultEntry (s t : State) : Prop where
  frame : t = { s with cmd := t.cmd, err := t.err, phase := .fault }
  record : errLegal t.err = true

theorem FaultEntry.phase (h : FaultEntry s t) : t.phase = .fault := congrArg State.phase h.frame

/-- R24, R131: a step is a fault entry, or it stays outside FAULT and leaves ERR alone. -/
theorem faultEntry_or_live_of_step (h : step s = .next t) :
    FaultEntry s t ∨ (t.phase ≠ .fault ∧ t.err = s.err) := by
  obtain ⟨hl, ⟨op, rest, hf, rfl⟩ | ⟨i, rest, -, hexec⟩⟩ := step_next_cases h
  · exact .inl ⟨rfl, errLegal_illegal (ofByte?_of_decode_reserved hf)⟩
  · obtain ⟨-, ⟨c, hr, rfl⟩ | hc⟩ := exec_next_cases hexec
    · exact .inl ⟨rfl, errLegal_of_raises hr⟩
    · exact .inr ⟨live_of_completes (s := s.advance rest) hl hc, (leaves_of_completes hc).err⟩

/-! ### In FAULT -/

/-- R130: no command executes in FAULT. The shape of a lane is checked before the phase. -/
theorem exec_of_fault (h : s.phase = .fault) (hwf : i.wf s.cfg = true) :
    exec i s = .fault .phaseFault := by
  cases i with
  | abs | fin => exact State.whenActive_of_fault h
  | vabs lane =>
    rw [exec, execVabs, if_pos (lane_length_of_wf hwf)]
    exact State.whenActive_of_fault h
  | nop | init | seed | setck | ser | rdCk | rdS1 | rdS2 | rdStatus | rdCap =>
    exact State.whenLive_of_fault h

/-! ### The accepted and the faulting neighbours -/

/-- R131: a command that raises a fault writes the record `{opcode, code}` and PHASE. -/
theorem exec_of_raises_record (o : Opcode) {c : Cause} {e : BitVec 16} (hl : s.phase ≠ .fault)
    (hr : Raises i s c) (ho : i.opcode = o) (he : o.byte ++ c.code = e) :
    exec i s = .next { s with err := e, phase := .fault } := by
  subst ho he
  exact exec_of_raises hl hr

/-- R135: SEED of a value out of range takes the fault ERR_SEED. -/
theorem exec_seed_of_illegal (hl : s.phase ≠ .fault) (h : seedLegal v = false) :
    exec (.seed v) s = .next { s with err := 0x0203, phase := .fault } :=
  exec_of_raises_record .seed hl ⟨rfl, h⟩ rfl rfl

/-- R134: ABS in DONE takes the fault ERR_PHASE. -/
theorem exec_abs_of_done (hd : s.phase = .done) (b : Byte) :
    exec (.abs b) s = .next { s with err := 0x1002, phase := .fault } :=
  exec_of_raises_record .abs (c := .phase) (by simp [hd]) ⟨rfl, hd⟩ rfl rfl

/-- R96: FIN in ACTIVE ends in DONE with a checksum latched and none of it sent. -/
theorem completes_fin_of_active (ha : s.phase = .active) :
    ∃ t v, Completes .fin s t ∧ t.phase = .done ∧ t.ck = some v ∧ t.sp = 0 :=
  ⟨_, _, ⟨ha, rfl⟩, rfl, rfl, rfl⟩

/-- R134: message bytes are accepted behind a command that starts a computation. -/
theorem execAll_start_abs {seed : Nat × Nat} (hl : s.phase ≠ .fault) (h : Starts i seed)
    (b : Byte) : ∃ t, execAll [i, .abs b] s = .next t ∧ t.phase = .active := by
  obtain ⟨a, a', -, -, -, hstart⟩ := completes_of_starts h
  have habs : Completes (.abs b) (s.start a a') ((s.start a a').foldPending.acc1 b) := ⟨rfl, rfl⟩
  exact ⟨_, execAll_pair_of_completes hl (hstart s) habs,
    (leaves_of_completes habs).phase (by simp [Instr.opcode])⟩

/-- A single command executes as `exec` does. -/
theorem execAll_singleton (h : exec i s = .next t) : execAll [i] s = .next t := by
  simp only [execAll, h]

/-- R63, R137: SER is accepted behind SETCK, which rewinds SP. -/
theorem execAll_setck_ser (hl : s.phase ≠ .fault) (w : Word) :
    ∃ t, execAll [.setck w, .ser] s = .next t ∧ t.phase = s.phase :=
  ⟨_, execAll_pair_of_completes hl (t := s.latch w) rfl
    (completes_ser rfl (be32_getElem? w (n := 0) (by decide))), rfl⟩

/-! ### The obligations -/

/-- Settles O34: a step is a fault entry or leaves ERR alone. -/
theorem faultEntryWritesOnlyItsRecord : Obligations.FaultEntryWritesOnlyItsRecord := by
  intro s t h
  obtain hentry | ⟨hlive, herr⟩ := faultEntry_or_live_of_step h
  · exact ⟨fun _ => ⟨hentry.frame, hentry.record⟩, fun hlive => absurd hentry.phase hlive⟩
  · exact ⟨fun hfault => absurd hfault hlive, fun _ => herr⟩

/-- Settles O35: a command that answers enters FAULT exactly when it raises one of its faults, and
those are the listed ones. -/
theorem commandFaultsExactlyWhenListed : Obligations.CommandFaultsExactlyWhenListed := by
  intro i s hl hwf
  obtain ⟨t, hexec⟩ := exec_next_of_wf hl hwf
  exact ⟨t, hexec, (fault_iff_raises hexec).trans (exists_raises_iff hwf)⟩

/-- Settles O6: taking the packet is the one change before the instruction executes. -/
theorem stepRunsDecodedInstruction : Obligations.StepRunsDecodedInstruction :=
  fun _ _ _ hl hf => step_of_packet hl hf

/-- Settles O8: a byte that is none of the opcode bytes selects no row, so it is a packet by
itself. -/
theorem reservedOpcodeFaults : Obligations.ReservedOpcodeFaults := by
  refine ⟨fun s op rest hl hcmd hop => ?_, rfl, rfl, rfl, rfl, rfl, rfl, rfl, rfl⟩
  have hreserved : Opcode.ofByte? op = none := Opcode.ofByte?_eq_none_iff.mpr hop
  exact ⟨step_of_reserved hl (decode_reserved_iff.mpr ⟨hcmd, hreserved⟩), fun _ _ => rfl⟩

/-- Settles O9: presenting bytes leaves PHASE, and both `step` and `exec` answer by it. -/
theorem faultPhaseAbsorbs : Obligations.FaultPhaseAbsorbs :=
  fun s h =>
    ⟨fun bytes => step_of_fault (s := s.present bytes) h, fun _ => exec_of_fault h, rfl, rfl⟩

/-- Settles O16: the range check decides, and it is evaluated at the three neighbours. -/
theorem seedOutOfRangeFaults : Obligations.SeedOutOfRangeFaults := by
  intro s hl
  refine ⟨fun v hv => exec_seed_of_illegal hl (seedLegal_eq_false_iff.mpr hv), ?_, ?_, ?_⟩
  · exact ⟨_, exec_of_completes hl ⟨by decide, rfl⟩, rfl⟩
  · exact ⟨_, exec_seed_of_illegal hl (by decide), rfl⟩
  · exact ⟨_, exec_seed_of_illegal hl (by decide), rfl⟩

/-- Settles O24: in DONE the three commands raise ERR_PHASE; FIN leads there from ACTIVE, and INIT
and a legal SEED start a computation from there. -/
theorem commandsAfterFinFault : Obligations.CommandsAfterFinFault := by
  constructor
  · intro s hd
    have hl : s.phase ≠ .fault := by simp [hd]
    exact ⟨exec_abs_of_done hd,
      fun lane hlane => exec_of_raises_record .vabs hl ⟨rfl, hd, hlane⟩ rfl rfl,
      exec_of_raises_record .fin hl ⟨rfl, hd⟩ rfl rfl⟩
  · intro s b ha
    obtain ⟨u, -, hfin, hd, -, -⟩ := completes_fin_of_active ha
    have hl : u.phase ≠ .fault := by simp [hd]
    simp only [execAll_cons_of_completes (by simp [ha]) hfin]
    exact ⟨execAll_start_abs hl (.inl ⟨rfl, rfl⟩) b,
      ⟨_, execAll_singleton (exec_abs_of_done hd b), rfl⟩,
      fun v hv => execAll_start_abs hl (.inr ⟨v, rfl, hv, rfl⟩) b⟩

/-- Settles O29: without a value of CK the two commands raise ERR_NOCK, and with four bytes sent SER
raises ERR_SEROVR; after reset FIN latches a checksum, RD.CK reads it and TRAILER sends it. -/
theorem latchAndSerialiserFaults : Obligations.LatchAndSerialiserFaults := by
  refine ⟨fun s hl hck => ?_, fun s v hl hck hsp => ?_, fun c => ?_⟩
  · exact ⟨exec_of_raises_record .ser hl (.inl ⟨rfl, hck⟩) rfl rfl,
      exec_of_raises_record .rdCk hl ⟨rfl, hck⟩ rfl rfl⟩
  · exact ⟨exec_ser_of_drained hl hck hsp, execAll_setck_ser hl⟩
  · have hl : (State.resetOf c).phase ≠ .fault := Phase.noConfusion
    obtain ⟨u, v, hfin, hd, hck, hsp⟩ := completes_fin_of_active (s := State.resetOf c) rfl
    have hlu : u.phase ≠ .fault := live_of_completes hl hfin
    constructor
    · exact ⟨_, execAll_pair_of_completes hl hfin ⟨v, hck, rfl⟩, hd⟩
    · obtain ⟨t, hsent, rfl, -, -, hfifth, -⟩ := trailerPutsBigEndianChecksum u v hlu hck hsp
      refine ⟨_, (execAll_cons_of_completes hl hfin _).trans hsent, hd, rfl, hfifth, fun w => ?_⟩
      obtain ⟨u', hexec, hphase⟩ := execAll_setck_ser (s := { u with sp := 4, out := _ }) hlu w
      exact ⟨u', hexec, hphase.trans hd⟩

end Sys2Proof.Machine
end

section
/-! PROOFS of the family `70_reset_and_hazards.md`: a run has ended exactly in the states without a
step (R153), and every run ends (R158). -/

namespace Sys2Proof.Machine

variable {s t : State} {e : RunEnd}

/-! ### How a run ends -/

/-- R153: the model's reason to have no step at each end of a run (log entry 3). -/
def RunEnd.reason : RunEnd → Fault
  | .normal => .streamEnded
  | .faulted => .phaseFault
  | .held => .held

theorem RunEnd.reason_injective : Function.Injective RunEnd.reason := by
  intro e e' h
  cases e <;> cases e' <;> simp [RunEnd.reason] at h ⊢

/-- R153: how a run outside FAULT has ended, by what the decoder finds on CMD. -/
def endOfDecoded : Decoded → Option RunEnd
  | .empty => some .normal
  | .held => some .held
  | .reserved _ _ => none
  | .packet _ _ => none

theorem State.runEnd_of_fault (h : s.phase = .fault) : s.runEnd = some .faulted := by
  rw [State.runEnd, h]

theorem State.runEnd_of_live (hl : s.phase ≠ .fault) : s.runEnd = endOfDecoded s.fetch := by
  cases hp : s.phase with
  | fault => exact absurd hp hl
  | active | done =>
    rw [State.runEnd, hp]
    cases s.fetch <;> rfl

/-- R130: outside FAULT there is a step at every packet. -/
theorem exists_step_of_packet {i : Instr} {rest : List Byte} (hl : s.phase ≠ .fault)
    (hf : s.fetch = .packet i rest) : ∃ t, step s = .next t := by
  rw [step_of_packet hl hf]
  exact exec_next_of_wf (s := s.advance rest) hl (wf_and_eq_of_decode_packet hf).1

/-- R153: the run has ended and the step answers the reason, or it has not and there is a step. -/
theorem ended_or_steps (s : State) :
    (∃ e, s.runEnd = some e ∧ step s = .fault e.reason) ∨
      (s.runEnd = none ∧ ∃ t, step s = .next t) := by
  by_cases hl : s.phase = .fault
  · exact .inl ⟨.faulted, State.runEnd_of_fault hl, step_of_fault hl⟩
  rw [State.runEnd_of_live hl]
  cases hf : s.fetch with
  | empty => exact .inl ⟨.normal, rfl, step_of_empty hl hf⟩
  | held => exact .inl ⟨.held, rfl, step_of_held hl hf⟩
  | reserved op rest => exact .inr ⟨rfl, _, step_of_reserved hl hf⟩
  | packet i rest => exact .inr ⟨rfl, exists_step_of_packet hl hf⟩

theorem State.runEnd_eq_none_iff : s.runEnd = none ↔ ∃ t, step s = .next t := by
  obtain ⟨e, hend, hstep⟩ | ⟨hend, hstep⟩ := ended_or_steps s
  · simp [hend, hstep]
  · simp only [hend, hstep]

theorem State.runEnd_eq_some_iff : s.runEnd = some e ↔ step s = .fault e.reason := by
  obtain ⟨e', hend, hstep⟩ | ⟨hend, t, hstep⟩ := ended_or_steps s
  · simp [hend, hstep, RunEnd.reason_injective.eq_iff]
  · simp [hend, hstep]

/-! ### Every run ends -/

/-- R31: a packet has at least its opcode byte, so a step leaves fewer bytes on CMD. -/
theorem cmd_length_lt_of_step (h : step s = .next t) : t.cmd.length < s.cmd.length := by
  obtain ⟨op, payload, rest, htakes⟩ := takesPacket_of_step h
  rw [htakes.left, htakes.cmd, List.length_append, List.length_cons]
  omega

/-- R158: a run ends within as many steps as CMD has bytes: each step takes at least one. -/
theorem exists_run_to_end (s : State) :
    ∃ n ≤ s.cmd.length, ∃ t e,
      Host.Core.run Sys2Proof.core n s = .next t ∧ t.runEnd = some e := by
  obtain ⟨e, hend, -⟩ | ⟨-, u, hstep⟩ := ended_or_steps s
  · exact ⟨0, Nat.zero_le _, s, e, rfl, hend⟩
  · have hlt := cmd_length_lt_of_step hstep
    obtain ⟨n, hn, t, e, hrun, hend⟩ := exists_run_to_end u
    exact ⟨n + 1, by omega, t, e, (run_succ_of_step n hstep).trans hrun, hend⟩
termination_by s.cmd.length

/-! ### The obligations -/

/-- Settles O10: each end of a run is tied to the step through its reason. -/
theorem stepExistsUntilRunEnds : Obligations.StepExistsUntilRunEnds :=
  fun _ =>
    ⟨State.runEnd_eq_none_iff, State.runEnd_eq_some_iff (e := .normal),
      State.runEnd_eq_some_iff (e := .faulted), State.runEnd_eq_some_iff (e := .held)⟩

/-- Settles O12: the run reaches a state in which it has ended, and there the step answers the
reason of that end. -/
theorem everyRunStops : Obligations.EveryRunStops := by
  intro s
  obtain ⟨n, hn, t, e, hrun, hend⟩ := exists_run_to_end s
  exact ⟨n, hn, t, e.reason, hrun, State.runEnd_eq_some_iff.mp hend⟩

end Sys2Proof.Machine
end
